-- ==== Sys2Proof/Word.lean ====
section
/-! DEFINITION. Word.lean: the words of the block (R10, R70), the line symbol and the frame (R13, R26), the causes of
a rejected command (R201), and the byte orders a platform bus may have (R51). -/

namespace Sys2Proof

/-- A command word, and every 32-bit register (R24, R28, R29, R70). -/
abbrev Word := BitVec 32

/-- A 16-bit packet, `throttleField(11) | telemetryBit(1) | checksum(4)` (R15, R25). -/
abbrev Packet := BitVec 16

/-- The 12 high bits of a packet: the throttle field, then the telemetry bit (R15). -/
abbrev Data12 := BitVec 12

/-- An 11-bit throttle field (R15, R74). -/
abbrev Throttle := BitVec 11

/-- The 4-bit checksum (R120). -/
abbrev Nibble := BitVec 4

/-- A 3-bit speed-grade code: 0 is OFF, 1 to 4 are the grades 150, 300, 600 and 1200, 5 to 7 are reserved (R20). -/
abbrev GradeCode := BitVec 3

/-- A byte of a platform's bus (R51). The block itself has no byte-addressed storage (R50). -/
abbrev Byte := BitVec 8

/-- A line level: 1 is high and 0 is low (R13). -/
inductive Level where
  | low
  | high
deriving DecidableEq, Repr

/-- A symbol `(level0, dur0, level1, dur1)`: the line holds `level0` for `dur0` ticks and then `level1` for `dur1`
ticks (R13, R53).
The spec's durations are `DUR_W` bits wide with `DUR_W` open; no operation on them wraps (R14), so they are exact
numbers here. Whatever symbols come from outside are taken at that width (`LineSymbol.toWidth`), the encoder's fit it,
and `LineSymbol.fits` says that one does (notes/assumptions/8.md). -/
structure LineSymbol where
  level0 : Level
  dur0 : Nat
  level1 : Level
  dur1 : Nat
deriving DecidableEq, Repr

/-- Both durations of the symbol fit fields of `w` bits (R13). -/
def LineSymbol.fits (w : Nat) (y : LineSymbol) : Bool :=
  decide (y.dur0 < 2 ^ w) && decide (y.dur1 < 2 ^ w)

/-- The symbol with durations of `w` bits: what a field of that width holds of it (R13). -/
def LineSymbol.toWidth (w : Nat) (y : LineSymbol) : LineSymbol :=
  { y with dur0 := y.dur0 % 2 ^ w, dur1 := y.dur1 % 2 ^ w }

/-- A frame is exactly 17 symbols: entries 0 to 15 carry packet bits 15 to 0 and entry 16 is the pause (R26). -/
abbrev Frame := Vector LineSymbol 17

/-- Every duration of the frame fits a field of `w` bits (R26). -/
def Frame.fits (w : Nat) (f : Frame) : Bool :=
  f.toList.all (LineSymbol.fits w)

/-- The frame with durations of `w` bits (R13, R26). -/
def Frame.toWidth (w : Nat) (f : Frame) : Frame := f.map (LineSymbol.toWidth w)

/-- One segment of the line: a level held for a number of ticks (R59). -/
structure Segment where
  level : Level
  ticks : Nat
deriving DecidableEq, Repr

/-- The two byte orders a byte-addressed platform bus may have (R51, `BUS_ENDIAN`). -/
inductive Endian where
  | little
  | big
deriving DecidableEq, Repr, Inhabited

/-- Why a command word is rejected (R201). -/
inductive IllegalCause where
  /-- `cmd[31:28]` in 0xB to 0xF (R79). -/
  | illOpcode
  /-- a reserved bit of the word's format is set (R80). -/
  | illReserved
  /-- `LUT` with `GRADE ≥ 5` (R104). -/
  | illGrade
  /-- `TRANSMIT` with `FRAME_VALID = 0` (R145). -/
  | illNoFrame
deriving DecidableEq, Repr

/-- The cause's number in the table of R201. -/
def IllegalCause.code : IllegalCause → Nat
  | .illOpcode => 1
  | .illReserved => 2
  | .illGrade => 3
  | .illNoFrame => 4

end Sys2Proof
end

