-- ==== Sys2Proof/Machine/Operands.lean ====
section
/-! DEFINITION. Operands.lean: every operand field of a command word (R77), the fields of a packet (R25), and
zero-extension to the width of `RES` (R12). No field is sign-extended, scaled or shifted (R77). -/

namespace Sys2Proof.Machine

/-- `OP = cmd[31:28]` (R70). -/
def opField (w : Word) : BitVec 4 := w.extractLsb' 28 4

/-- `DATA12 = cmd[11:0]` (R72). -/
def data12Field (w : Word) : Data12 := w.extractLsb' 0 12

/-- `POL = cmd[12]` of format C (R72). -/
def polFieldC (w : Word) : Bool := w.getLsbD 12

/-- `POL = cmd[16]` of format V (R73). -/
def polFieldV (w : Word) : Bool := w.getLsbD 16

/-- `PKT16 = cmd[15:0]` (R73, R76). -/
def pkt16Field (w : Word) : Packet := w.extractLsb' 0 16

/-- `THR = cmd[10:0]` (R74). -/
def thrField (w : Word) : Throttle := w.extractLsb' 0 11

/-- `GRADE = cmd[2:0]` (R75). -/
def gradeField (w : Word) : GradeCode := w.extractLsb' 0 3

/-- `PKT[15:5]`, the throttle field (R25). -/
def throttleOf (p : Packet) : Throttle := p.extractLsb' 5 11

/-- `PKT[4]`, the telemetry bit (R25). -/
def telemetryOf (p : Packet) : Bool := p.getLsbD 4

/-- `PKT[15:4]`, the 12 data bits (R15, R128). -/
def dataOf (p : Packet) : Data12 := p.extractLsb' 4 12

/-- `PKT[3:0]`, the checksum field (R25). -/
def checksumOf (p : Packet) : Nibble := p.extractLsb' 0 4

/-- The word that holds `v` in the bits from `lo` up and 0 elsewhere: a field at its place (R70 to R76). -/
def place {n : Nat} (v : BitVec n) (lo : Nat) : Word := v.setWidth 32 <<< lo

/-- `zext_32` (R12). -/
def zext {n : Nat} (v : BitVec n) : Word := v.setWidth 32

end Sys2Proof.Machine
end

