-- ==== Sys2Proof/Config.lean ====
section
/-! DEFINITION. Config.lean: the parameters of R8, those the source fixes as numbers and the open ones as constants
with no body, and the receive oracle of R60 as a free value. -/

namespace Sys2Proof

/-- The parameters of R8 that a model takes as arguments, and `BUS_ENDIAN` (R51).
`State` carries one such record, which no step changes, so that a statement about every state is a statement about
every choice of them (notes/assumptions/7.md). `PAUSE_BITS` and `DUR_W` are held as how far they lie above their least
values, so that no record is outside the ranges R8 gives them. -/
structure Params where
  /-- how far `PAUSE_BITS` lies above its least value 1. -/
  pauseBitsAboveOne : Nat
  /-- how far `DUR_W` lies above the least width that holds the longest duration. -/
  durWAboveLeast : Nat
  /-- `RX_CAP`: the most symbols one receive poll answers with. -/
  rxCap : Nat
  /-- `ERPM_SCALE`: the telemetry value is the throttle field times this. -/
  erpmScale : Nat
  /-- `BUS_ENDIAN`: the byte order of a platform's byte-addressed bus. -/
  busEndian : Endian
deriving DecidableEq, Repr

/-- `PAUSE_BITS`: the pause lasts `ticksPerBit × PAUSE_BITS` ticks; any integer of 1 or more (R8). -/
def Params.pauseBits (p : Params) : Nat := p.pauseBitsAboveOne + 1

/-- `DUR_W`: the width of a symbol's duration fields; any width in which `64 × PAUSE_BITS` fits (R8). -/
def Params.durW (p : Params) : Nat := Nat.log2 (64 * p.pauseBits) + 1 + p.durWAboveLeast

/-- The ranges R8 gives the open parameters: `PAUSE_BITS ≥ 1` and `64 × PAUSE_BITS ≤ 2^DUR_W − 1`. -/
abbrev Params.Legal (p : Params) : Prop :=
  1 ≤ p.pauseBits ∧ 64 * p.pauseBits ≤ 2 ^ p.durW - 1

namespace Config

/-- `MAX_BITS`: the decoder accumulates at most 16 bits (R8, R163). -/
def maxBits : Nat := 16

/-- `THR_MIN`: the low end of the valid throttle band (R8). -/
def thrMin : Nat := 48

/-- `THR_MAX`: the high end of the valid throttle band (R8). -/
def thrMax : Nat := 2047

/-- `FRAME_SYMS`: the symbols of a transmitted frame (R8). -/
def frameSyms : Nat := 17

/-- `RX_MIN_NS`: the transceiver's receive-window minimum; no rule of the block uses it (R8, R61). -/
def rxMinNs : Nat := 1000

/-- `RX_MAX_NS`: the transceiver's receive-window maximum; no rule of the block uses it (R8, R61). -/
def rxMaxNs : Nat := 15000

/-- `ERPM_SCALE`'s default, the source's value (R8, R167). -/
def erpmScaleDefault : Nat := 100

/-- How far `PAUSE_BITS` lies above its least value 1: open, so a constant with no body. -/
opaque pauseBitsAboveOne : Nat

/-- How far `DUR_W` lies above the least width that holds the longest duration: open, so a constant with no body. -/
opaque durWAboveLeast : Nat

/-- `RX_CAP`: open, so a constant with no body (R8). -/
opaque rxCap : Nat

/-- `BUS_ENDIAN`: open, so a constant with no body (R51). -/
opaque busEndian : Endian

/-- The answer of the `n`-th draw on receive channel `c`, before the bounds of R60 are put on it: a free value, so a
constant with no body (notes/assumptions/4.md). Each instance has a channel of its own (R211). -/
opaque rxOracle : (c n : Nat) → Option (List LineSymbol)

/-- The parameters of the machine after reset: the open ones open, `ERPM_SCALE` at its default. -/
def params : Params :=
  { pauseBitsAboveOne := pauseBitsAboveOne, durWAboveLeast := durWAboveLeast, rxCap := rxCap,
    erpmScale := erpmScaleDefault, busEndian := busEndian }

end Config

end Sys2Proof
end

