-- ==== Sys2Proof/Syntax.lean ====
section
/-! DEFINITION. Syntax.lean: the commands of the opcode map (R78), and the assembler's source lines with their
pseudo-commands (R85, R86). -/

namespace Sys2Proof

/-- A command, one constructor per row of the opcode map (R78). Operands are the fields of R77, at their widths:
a polarity `POL` is `true` for 1, the inverted (bidirectional) form. -/
inductive Instr where
  /-- `NOP` (R91). -/
  | nop
  /-- `CSUM DATA12, POL` (R129). -/
  | csum (data12 : Data12) (pol : Bool)
  /-- `VERIFY PKT16, POL` (R130). -/
  | verify (pkt16 : Packet) (pol : Bool)
  /-- `ASSEMBLE THR` (R131). -/
  | assemble (thr : Throttle)
  /-- `LUT GRADE` (R104). -/
  | lut (grade : GradeCode)
  /-- `ENCODE PKT16` (R144). -/
  | encode (pkt16 : Packet)
  /-- `TRANSMIT` (R145). -/
  | transmit
  /-- `SEND THR` (R146). -/
  | send (thr : Throttle)
  /-- `DECODE` (R169). -/
  | decode
  /-- `READ_ERPM` (R170). -/
  | readErpm
  /-- `READ_STATUS` (R93). -/
  | readStatus
deriving DecidableEq, Repr

/-- The five grade names an assembler line may use for a code (R85). -/
inductive GradeName where
  | off
  | g150
  | g300
  | g600
  | g1200
deriving DecidableEq, Repr

/-- The code a grade name stands for (R20, R85). -/
def GradeName.code : GradeName → Nat
  | .off => 0
  | .g150 => 1
  | .g300 => 2
  | .g600 => 3
  | .g1200 => 4

/-- A line of assembler source after reading its numerals, before its operands are checked against their fields
(R85), the pseudo-commands included (R86). -/
inductive AsmLine where
  | nop
  | csum (data12 pol : Nat)
  | verify (pkt16 pol : Nat)
  | assemble (thr : Nat)
  | lut (grade : Nat)
  | encode (pkt16 : Nat)
  | transmit
  | send (thr : Nat)
  | decode
  | readErpm
  | readStatus
  /-- `CSUM.STD d`. -/
  | csumStd (data12 : Nat)
  /-- `CSUM.INV d`. -/
  | csumInv (data12 : Nat)
  /-- `VERIFY.STD p`. -/
  | verifyStd (pkt16 : Nat)
  /-- `VERIFY.INV p`. -/
  | verifyInv (pkt16 : Nat)
  /-- `LUT.OFF`, `LUT.G150`, `LUT.G300`, `LUT.G600`, `LUT.G1200`. -/
  | lutNamed (grade : GradeName)
  /-- `LOAD t`: three commands, the second with an operand read from `RES`. -/
  | load (thr : Nat)
deriving DecidableEq, Repr

end Sys2Proof
end

