-- ==== Sys2Proof/Machine/State.lean ====
section
/-! DEFINITION. State.lean: everything the spec gives the machine: the configuration and the registers of the block
(R20 to R30), the transceiver's transmit state (R33), the model-only marks (R35), the host agent (R36, R180), and the
environment's pending inputs; and the state after reset (R37, R220). -/

namespace Sys2Proof.Machine

/-- An event of the history `HIST` (R35). -/
inductive Event where
  /-- a command was taken, with its word (R90). -/
  | command (word : Word)
  /-- a frame was handed to the transceiver (R58). -/
  | txLoad (frame : Frame)
  /-- the receive side was polled, with its answer (R60). -/
  | rxPoll (answer : Option (List LineSymbol))
deriving DecidableEq, Repr

/-- A record of the model-only set `FAULT`: the cause and the command word (R92, R201). -/
structure FaultRecord where
  cause : IllegalCause
  word : Word
deriving DecidableEq, Repr

/-- What a reset of the instance takes from outside (R9, R220): the three configuration inputs, and the contents the
frame buffer happens to hold, which the spec leaves unspecified (R37, notes/assumptions/2.md). -/
structure ResetInputs where
  mode : GradeCode
  bidir : Bool
  rxPresent : Bool
  frame : Frame
deriving DecidableEq, Repr

/-- What the outside does next. The spec lets the host's commands and the transceiver's steps interleave freely (R58,
R90, R94), so the order is data: a list of these in `State.inputs` (notes/assumptions/3.md). -/
inductive Input where
  /-- the host issues one command word (R70, R90). -/
  | command (word : Word)
  /-- the transceiver takes its frame-boundary step (R58). -/
  | frameBoundary
  /-- the transceiver sends the frame it is looping once more, whole, before it takes up a waiting one (R58, R224). -/
  | frameRepeat
  /-- the host calls `setThrottle(requested)` (R182). -/
  | setThrottle (requested : BitVec 16)
  /-- the host calls `getERPM()` (R183). -/
  | getERPM
  /-- the host calls `getMotorRPM(magnetCount)` (R184). -/
  | getMotorRPM (magnetCount : BitVec 8)
  /-- the instance is reset, that is, created anew (R207, R220). -/
  | reset (inputs : ResetInputs)
deriving DecidableEq, Repr

/-- The machine: one engine instance, its transceiver, its host, and what the environment will do. -/
structure State where
  /-- the parameters of R8 (no register; no step changes them). -/
  params : Params
  /-- `CFG_MODE` (R20). -/
  cfgMode : GradeCode
  /-- `CFG_BIDIR` (R21). -/
  cfgBidir : Bool
  /-- `CFG_RX_PRESENT` (R22). -/
  cfgRxPresent : Bool
  /-- `RES`, the response register (R24). -/
  res : Word
  /-- `PKT`, the packet register (R25). -/
  pkt : Packet
  /-- `FRAME[0..16]`, the frame buffer (R26). -/
  frame : Frame
  /-- `FRAME_VALID` (R27). -/
  frameValid : Bool
  /-- `TX_LOADED` (R27). -/
  txLoaded : Bool
  /-- `LAST_ERPM`, the telemetry register (R28). -/
  lastErpm : Word
  /-- `ERR_ILLEGAL`, sticky (R30). -/
  errIllegal : Bool
  /-- `TXF`: the frame the transceiver is looping (R33). -/
  txf : Option Frame
  /-- `TXF_NEXT`: a frame handed over and not yet started (R33). -/
  txfNext : Option Frame
  /-- what the line has carried since reset, segment by segment (R59). -/
  line : List Segment
  /-- `FAULT`: the set of rejections since reset, in rising order of `FaultRecord.key` (R35). -/
  faults : List FaultRecord
  /-- `PRECOND_OFF`: the encoder was driven in OFF mode (R35, R143). -/
  precondOff : Bool
  /-- `HIST`: the event history, oldest first (R35). -/
  hist : List Event
  /-- the host's `lastThrottle` (R36, R180). -/
  lastThrottle : Throttle
  /-- what the host's last `getERPM` or `getMotorRPM` call returned (R183, R184; the model's own field). -/
  hostResult : Word
  /-- what the outside does next, in order (the model's own field). -/
  inputs : List Input
  /-- the answers the next receive polls get, in order (R60; the model's own field, notes/assumptions/4.md). -/
  rxTape : List (Option (List LineSymbol))
  /-- how many polls were answered by the free value `Config.rxOracle` (the model's own field). -/
  rxDraws : Nat
  /-- which receive channel of `Config.rxOracle` is this instance's (R211; the model's own field). -/
  rxChannel : Nat
deriving DecidableEq, Repr

/-- What stops the machine with a fault: nothing. The block never halts and its one error path goes on with the next
command (R92, R200, R202, R206), so a rejected command is a next state that records itself in `FAULT`. The type is
empty, and no one raises it. -/
inductive Fault where
deriving DecidableEq, Repr

/-- Why the model has no meaning for a step. -/
inductive Refusal where
  /-- an instruction with no meaning yet, raised by `exec`'s arm for it. Safe: the model stops where the hardware goes
  on. -/
  | notModelled (mnemonic : String)
  /-- `CFG_MODE` is 5, 6 or 7, "not a configuration of this hardware": raised by every step from such a state, by a
  reset to such a code, and by `ENCODE` and `SEND`, whose profile is not defined there (R100, R222). Safe: the model
  admits no run where the spec admits none. -/
  | reservedMode
deriving DecidableEq, Repr

/-- The three outcomes of a step of this machine. -/
abbrev Outcome := Host.Outcome State Fault Refusal

/-- A symbol with both halves low and no duration. -/
def zeroSymbol : LineSymbol := { level0 := .low, dur0 := 0, level1 := .low, dur1 := 0 }

/-- The machine right after a reset with the given inputs (R37, R220): configuration sampled, `FRAME` as found, its
entries of `DUR_W`-bit durations (R26), everything else at the value of R37's table, nothing pending outside. -/
def State.resetWith (p : Params) (inp : ResetInputs) : State :=
  { params := p
    cfgMode := inp.mode
    cfgBidir := inp.bidir
    cfgRxPresent := inp.rxPresent
    res := 0
    pkt := 0
    frame := inp.frame.toWidth p.durW
    frameValid := false
    txLoaded := false
    lastErpm := 0
    errIllegal := false
    txf := none
    txfNext := none
    line := []
    faults := []
    precondOff := false
    hist := []
    lastThrottle := 0
    hostResult := 0
    inputs := []
    rxTape := []
    rxDraws := 0
    rxChannel := 0 }

/-- The reset inputs of `State.reset`: OFF, uni-directional, no receive channel, a frame buffer of zero symbols.
DESIGN CHOICE (notes/assumptions/1.md, notes/assumptions/2.md): the spec takes them from outside and gives none. -/
def ResetInputs.named : ResetInputs :=
  { mode := 0, bidir := false, rxPresent := false, frame := Vector.replicate 17 zeroSymbol }

/-- The machine right after reset (R37), with the configuration inputs the model names. -/
def State.reset : State := State.resetWith Config.params ResetInputs.named

end Sys2Proof.Machine
end

