-- ==== Sys2Proof/Machine/Flags.lean ====
section
/-! DEFINITION. Flags.lean: the `STATUS` view of the flags and the configuration (R29). The block has no condition
codes (R32); its three flags are set by the operations of Ops.lean and cleared by reset alone (R27, R30). -/

namespace Sys2Proof.Machine

/-- `STATUS = zext_32({CFG_RX_PRESENT, CFG_BIDIR, CFG_MODE[2:0], 0b0, TX_LOADED, FRAME_VALID, ERR_ILLEGAL})` (R29):
each field at its bit, bit 3 and bits 31 to 9 reading 0. -/
def State.status (s : State) : Word :=
  place (BitVec.ofBool s.cfgRxPresent) 8 ||| place (BitVec.ofBool s.cfgBidir) 7 ||| place s.cfgMode 4
    ||| place (BitVec.ofBool s.txLoaded) 2 ||| place (BitVec.ofBool s.frameValid) 1
    ||| place (BitVec.ofBool s.errIllegal) 0

end Sys2Proof.Machine
end

