-- ==== Sys2Proof/Machine/Ops.lean ====
section
/-! DEFINITION. Ops.lean: the operations every command is made of: writing a register, recording an event, the
rejection path (R92), the hand-over to the transceiver (R58), the receive poll (R60), and reset (R220). -/

namespace Sys2Proof.Machine

/-- `RES <- v` (R24). -/
def State.setRes (s : State) (v : Word) : State := { s with res := v }

/-- `PKT <- p` (R25). -/
def State.setPkt (s : State) (p : Packet) : State := { s with pkt := p }

/-- `FRAME <- f`, all 17 entries together, and `FRAME_VALID <- 1` (R26, R27, R55). -/
def State.storeFrame (s : State) (f : Frame) : State := { s with frame := f, frameValid := true }

/-- `TX_LOADED <- 1` (R27). -/
def State.setTxLoaded (s : State) : State := { s with txLoaded := true }

/-- `LAST_ERPM <- v` (R28). -/
def State.setLastErpm (s : State) (v : Word) : State := { s with lastErpm := v }

/-- `HIST <- HIST ++ [e]` (R35). -/
def State.record (s : State) (e : Event) : State := { s with hist := s.hist ++ [e] }

/-- The pending inputs become `is`. -/
def State.setInputs (s : State) (is : List Input) : State := { s with inputs := is }

/-- The host's `lastThrottle` becomes `t` (R182). -/
def State.setLastThrottle (s : State) (t : Throttle) : State := { s with lastThrottle := t }

/-- A host call returns `v` (R183, R184). -/
def State.setHostResult (s : State) (v : Word) : State := { s with hostResult := v }

/-- The instance's receive channel is `c` (R211). -/
def State.onChannel (s : State) (c : Nat) : State := { s with rxChannel := c }

/-- `PRECOND_OFF <- set` when `CFG_MODE = 0` (R143, R144, R146). -/
def State.markIfOff (s : State) : State := { s with precondOff := s.precondOff || s.cfgMode == 0 }

/-- One outcome after another: the second runs from the first's next state. -/
def andThen (o : Outcome) (k : State → Outcome) : Outcome :=
  match o with
  | .next s => k s
  | .fault f => .fault f
  | .refused r => .refused r

/-- A number that orders fault records, different for different records. -/
def FaultRecord.key (r : FaultRecord) : Nat := r.word.toNat * 8 + r.cause.code

/-- `{r} ∪ FAULT` (R92), the set kept as a list with rising keys. -/
def insertFault (r : FaultRecord) : List FaultRecord → List FaultRecord
  | [] => [r]
  | x :: xs =>
    if r.key < x.key then r :: x :: xs
    else if r.key = x.key then x :: xs
    else x :: insertFault r xs

/-- `raise IllegalCommand(cmd)` (R92): `ERR_ILLEGAL` is set, `FAULT` records the cause and the word, and nothing else
changes. There is no vector, no saved state and no return (R206, R207): the next command runs normally (R202). -/
def raiseIllegal (cause : IllegalCause) (word : Word) (s : State) : Outcome :=
  .next { s with errIllegal := true, faults := insertFault { cause := cause, word := word } s.faults }

/-- `TxLoad(f)` (R58): a copy of `f` becomes the frame to start next, any earlier one not yet started is discarded,
and the hand-over is recorded. -/
def txLoad (f : Frame) (s : State) : State := { s with txfNext := some f, hist := s.hist ++ [.txLoad f] }

/-- The bounds R60 puts on every answer: at most `RX_CAP` symbols, durations of `DUR_W` bits. -/
def boundAnswer (p : Params) (a : Option (List LineSymbol)) : Option (List LineSymbol) :=
  a.map fun l => (l.take p.rxCap).map (LineSymbol.toWidth p.durW)

/-- The answer the next poll gets: the next of the environment's tape, else a fresh draw of the instance's own channel
of the oracle, either within the bounds of R60. -/
def nextAnswer (s : State) : Option (List LineSymbol) :=
  match s.rxTape with
  | a :: _ => boundAnswer s.params a
  | [] => boundAnswer s.params (Config.rxOracle s.rxChannel s.rxDraws)

/-- `RxPoll()` (R60): the answer is consumed, so that the next poll gets a fresh one, and it is recorded. -/
def rxPoll (s : State) : State :=
  { s with
    hist := s.hist ++ [.rxPoll (nextAnswer s)]
    rxTape := s.rxTape.tail
    rxDraws := if s.rxTape.isEmpty then s.rxDraws + 1 else s.rxDraws }

/-- The grade code is 5, 6 or 7 (R20). -/
def modeReserved (g : GradeCode) : Bool := decide (5 ≤ g.toNat)

/-- Reset of the instance (R220): the configuration is sampled and everything else takes its value of R37. The
parameters, the receive channel and what the environment will still do are not the instance's, and stay. A reserved mode is refused
(R222). -/
def resetInstance (inp : ResetInputs) (s : State) : Outcome :=
  if modeReserved inp.mode then .refused .reservedMode
  else .next { State.resetWith s.params inp with
    inputs := s.inputs, rxTape := s.rxTape, rxDraws := s.rxDraws, rxChannel := s.rxChannel }

end Sys2Proof.Machine
end

