-- ==== Sys2Proof/Machine/Control.lean ====
section
/-! DEFINITION. Control.lean: `NOP` (R91) and `READ_STATUS` (R93). -/

namespace Sys2Proof.Machine

/-- `NOP` (R91): no effect; the step itself records the word (R90). -/
def execNop (s : State) : Outcome := .next s

/-- `READ_STATUS` (R93): reading clears nothing. -/
def execReadStatus (s : State) : Outcome := .next (s.setRes s.status)

end Sys2Proof.Machine
end

