-- ==== Sys2Proof/Machine/PacketAssembler.lean ====
section
/-! DEFINITION. PacketAssembler.lean: the checksum generator (R120), the packet encoder (R123, R124), the verifier
(R128), and `CSUM`, `VERIFY` and `ASSEMBLE` (R129 to R131). -/

namespace Sys2Proof.Machine

/-- `Checksum(data12, inv)` (R120): the exclusive-or fold of the three nibbles, complemented when inverted. -/
def checksum (d : Data12) (inv : Bool) : Nibble :=
  let x : Nibble := ((d ^^^ (d >>> 4) ^^^ (d >>> 8)) &&& 0xF#12).setWidth 4
  if inv then ~~~x &&& 0xF#4 else x

/-- `Data12(thr, tel) = (thr << 1) | tel` (R123). -/
def data12 (thr : Throttle) (tel : Bool) : Data12 :=
  (thr.setWidth 12 <<< 1) ||| (BitVec.ofBool tel).setWidth 12

/-- `Assemble(thr, bidir)` (R124): the telemetry bit and the polarity are both the bidirectional flag (R125, R126). -/
def assemblePacket (thr : Throttle) (bidir : Bool) : Packet :=
  let d := data12 thr bidir
  (d.setWidth 16 <<< 4) ||| (checksum d bidir).setWidth 16

/-- `Verify(pkt, inv)` (R128). -/
def verifyPacket (p : Packet) (inv : Bool) : Bool := checksumOf p == checksum (dataOf p) inv

/-- `CSUM` (R129). -/
def execCsum (d : Data12) (pol : Bool) (s : State) : Outcome := .next (s.setRes (zext (checksum d pol)))

/-- `VERIFY` (R130). -/
def execVerify (p : Packet) (pol : Bool) (s : State) : Outcome :=
  .next (s.setRes (zext (BitVec.ofBool (verifyPacket p pol))))

/-- `ASSEMBLE` (R131): every 11-bit throttle is accepted (R127). -/
def execAssemble (thr : Throttle) (s : State) : Outcome :=
  let p := assemblePacket thr s.cfgBidir
  .next ((s.setPkt p).setRes (zext p))

end Sys2Proof.Machine
end

