-- ==== Sys2Proof/Machine/FrameDecoder.lean ====
section
/-! DEFINITION. FrameDecoder.lean: bit recovery and the decoding function (R160 to R167, R175), and `DECODE` and
`READ_ERPM` (R169, R170). -/

namespace Sys2Proof.Machine

/-- `Bit(sym)` (R162): 1 when the high time is more than half the symbol, the sum exact and the half rounded down
(R161). -/
def symbolBit (y : LineSymbol) : Bool := decide (y.dur0 > (y.dur0 + y.dur1) / 2)

/-- The symbol's polarity is (high, low) (R160). -/
def highThenLow (y : LineSymbol) : Bool := y.level0 == .high && y.level1 == .low

/-- The loop of `DecodeBits` (R160) from a value and a count already accumulated. -/
def scanBits : List LineSymbol → Packet → Nat → Packet × Nat
  | [], value, count => (value, count)
  | y :: ys, value, count =>
    if count < Config.maxBits && highThenLow y then
      scanBits ys ((value <<< 1) ||| (BitVec.ofBool (symbolBit y)).setWidth 16) (count + 1)
    else (value, count)

/-- `DecodeBits(s)` (R160): the value and how many bits it holds. -/
def decodeBits (l : List LineSymbol) : Packet × Nat := scanBits l 0 0

/-- `DecodeFrame(s)` (R175), the checks in the order of R171; the product is reduced modulo 2^32 (R167). -/
def decodeFrame (scale : Nat) (l : List LineSymbol) : Option Word :=
  let (value, count) := decodeBits l
  if count < Config.maxBits then none
  else if !verifyPacket value true then none
  else
    let thr := (throttleOf value).toNat
    if thr < Config.thrMin || thr > Config.thrMax then none
    else some (BitVec.ofNat 32 (thr * scale))

/-- The polling half of `DECODE` (R169): one poll; a frame that decodes replaces `LAST_ERPM`, anything else leaves it
(R168). -/
def pollTelemetry (s : State) : State :=
  match (nextAnswer s).bind (decodeFrame s.params.erpmScale) with
  | some v => (rxPoll s).setLastErpm v
  | none => rxPoll s

/-- `DECODE` (R169): it polls only in bidirectional mode with a receive channel. -/
def execDecode (s : State) : Outcome :=
  let t := if s.cfgBidir && s.cfgRxPresent then pollTelemetry s else s
  .next (t.setRes t.lastErpm)

/-- `READ_ERPM` (R170). -/
def execReadErpm (s : State) : Outcome := .next (s.setRes s.lastErpm)

end Sys2Proof.Machine
end

