-- ==== Sys2Proof/Decode.lean ====
section
/-! DEFINITION. Decode.lean: the opcode map as a list of rows (R78), decoding by it, total over all words (R84), with
the cause where no row matches (R201), the encoder from the formats (R71 to R76), and the reading of an opcode-table
word. -/

namespace Sys2Proof

open Sys2Proof.Machine

/-- A row of the opcode map: the command it selects is `build` of the word's fields (R77, R78). -/
structure OpRow where
  matchBits : Word
  mask : Word
  build : Word → Instr

/-- A word selects a row when `(cmd & mask) == match` (R78). -/
def OpRow.selects (r : OpRow) (w : Word) : Bool := (w &&& r.mask) == r.matchBits

/-- The opcode map of R78, in its order. -/
def opRows : List OpRow :=
  [ { matchBits := 0x00000000, mask := 0xFFFFFFFF, build := fun _ => .nop },
    { matchBits := 0x10000000, mask := 0xFFFFE000, build := fun w => .csum (data12Field w) (polFieldC w) },
    { matchBits := 0x20000000, mask := 0xFFFE0000, build := fun w => .verify (pkt16Field w) (polFieldV w) },
    { matchBits := 0x30000000, mask := 0xFFFFF800, build := fun w => .assemble (thrField w) },
    { matchBits := 0x40000000, mask := 0xFFFFFFF8, build := fun w => .lut (gradeField w) },
    { matchBits := 0x50000000, mask := 0xFFFF0000, build := fun w => .encode (pkt16Field w) },
    { matchBits := 0x60000000, mask := 0xFFFFFFFF, build := fun _ => .transmit },
    { matchBits := 0x70000000, mask := 0xFFFFF800, build := fun w => .send (thrField w) },
    { matchBits := 0x80000000, mask := 0xFFFFFFFF, build := fun _ => .decode },
    { matchBits := 0x90000000, mask := 0xFFFFFFFF, build := fun _ => .readErpm },
    { matchBits := 0xA0000000, mask := 0xFFFFFFFF, build := fun _ => .readStatus } ]

/-- The first row that selects the word gives the command (R84). -/
def decodeRows : List OpRow → Word → Option Instr
  | [], _ => none
  | r :: rs, w => if r.selects w then some (r.build w) else decodeRows rs w

/-- The cause recorded for a word that selects no row: a reserved opcode (R79), else a set reserved bit (R80). -/
def illegalCause (w : Word) : IllegalCause :=
  if 0xB ≤ (opField w).toNat then .illOpcode else .illReserved

/-- `decode` (R84): total over all 2^32 words. The value and state checks of R81 are made by the command's own
rule. -/
def decode (w : Word) : Except IllegalCause Instr :=
  match decodeRows opRows w with
  | some i => .ok i
  | none => .error (illegalCause w)

/-- The word of a command, format by format: the opcode and the operand fields at their places, every other bit 0
(R71 to R76). -/
def encode : Instr → Word
  | .nop => place 0x0#4 28
  | .csum d p => place 0x1#4 28 ||| place (BitVec.ofBool p) 12 ||| place d 0
  | .verify k p => place 0x2#4 28 ||| place (BitVec.ofBool p) 16 ||| place k 0
  | .assemble t => place 0x3#4 28 ||| place t 0
  | .lut g => place 0x4#4 28 ||| place g 0
  | .encode k => place 0x5#4 28 ||| place k 0
  | .transmit => place 0x6#4 28
  | .send t => place 0x7#4 28 ||| place t 0
  | .decode => place 0x8#4 28
  | .readErpm => place 0x9#4 28
  | .readStatus => place 0xA#4 28

/-- The command word an opcode-table word stands for: its low `nbits` bits, the others 0. The block takes a command
whole on a parallel port and has no byte order (R51, R54), so there are no bytes to lay out. -/
def tableWord (nbits w : Nat) : Word := BitVec.ofNat 32 (w % 2 ^ nbits)

/-- The command the decoder reads from an opcode-table word of `nbits` bits; no command is longer than 32 bits
(R70). -/
def decodeTableWord (nbits w : Nat) : Option Instr :=
  if nbits ≤ 32 then (decode (tableWord nbits w)).toOption else none

end Sys2Proof
end

