-- ==== Sys2Proof/Machine/TimingProfile.lean ====
section
/-! DEFINITION. TimingProfile.lean: the timing table (R100) and `LUT` (R104). -/

namespace Sys2Proof.Machine

/-- A timing profile `(ticksPerBit, ticksHighZero, ticksHighOne)` (R15, R100). -/
structure TimingProfile where
  tpb : Nat
  hi0 : Nat
  hi1 : Nat
deriving DecidableEq, Repr

/-- `Profile(g)` (R100); not defined at the reserved codes 5, 6 and 7. -/
def profile (g : GradeCode) : Option TimingProfile :=
  match g.toNat with
  | 0 => some { tpb := 0, hi0 := 0, hi1 := 0 }
  | 1 => some { tpb := 64, hi0 := 24, hi1 := 48 }
  | 2 => some { tpb := 32, hi0 := 12, hi1 := 24 }
  | 3 => some { tpb := 16, hi0 := 6, hi1 := 12 }
  | 4 => some { tpb := 8, hi0 := 3, hi1 := 6 }
  | _ => none

/-- `zext_32({0x00, HI1[7:0], HI0[7:0], TPB[7:0]})` (R104). -/
def TimingProfile.packed (t : TimingProfile) : Word :=
  place (BitVec.ofNat 8 t.hi1) 16 ||| place (BitVec.ofNat 8 t.hi0) 8 ||| place (BitVec.ofNat 8 t.tpb) 0

/-- `LUT` (R104): the table's row for one grade goes to `RES`; a reserved grade is rejected. -/
def execLut (grade : GradeCode) (s : State) : Outcome :=
  match profile grade with
  | some t => .next (s.setRes t.packed)
  | none => raiseIllegal .illGrade (encode (.lut grade)) s

end Sys2Proof.Machine
end

