-- ==== Sys2Proof/Machine/FrameEncoder.lean ====
section
/-! DEFINITION. FrameEncoder.lean: the frame of a packet (R140, R141), and `ENCODE`, `TRANSMIT` and `SEND` (R144 to
R146). -/

namespace Sys2Proof.Machine

/-- The symbol of one packet bit: high for the bit's high time, then low for the rest of the bit period (R140). -/
def dataSymbol (t : TimingProfile) (b : Bool) : LineSymbol :=
  let hi := if b then t.hi1 else t.hi0
  { level0 := .high, dur0 := hi, level1 := .low, dur1 := t.tpb - hi }

/-- `PauseSymbol(TPB)` (R141): low for `TPB × PAUSE_BITS` ticks, all in the first half. -/
def pauseSymbol (pauseBits : Nat) (t : TimingProfile) : LineSymbol :=
  { level0 := .low, dur0 := t.tpb * pauseBits, level1 := .low, dur1 := 0 }

/-- `Encode(pkt, profile)` (R140): entry `i` below 16 carries packet bit `15 − i`, entry 16 is the pause. -/
def encodeFrame (pauseBits : Nat) (pkt : Packet) (t : TimingProfile) : Frame :=
  Vector.ofFn fun i : Fin 17 =>
    if i.val < 16 then dataSymbol t (pkt.getLsbD (15 - i.val)) else pauseSymbol pauseBits t

/-- The symbol count that `ENCODE` and `TRANSMIT` write to `RES` (R144, R145). -/
def frameCount : Word := BitVec.ofNat 32 Config.frameSyms

/-- `ENCODE` (R144): any packet is encoded, whatever its checksum; the transceiver is untouched. -/
def execEncode (p : Packet) (s : State) : Outcome :=
  match profile s.cfgMode with
  | some t => .next ((s.markIfOff.storeFrame (encodeFrame s.params.pauseBits p t)).setRes frameCount)
  | none => .refused .reservedMode

/-- `TRANSMIT` (R145): rejected while no frame has been encoded since reset. -/
def execTransmit (s : State) : Outcome :=
  if s.frameValid then .next ((txLoad s.frame s).setTxLoaded.setRes frameCount)
  else raiseIllegal .illNoFrame (encode .transmit) s

/-- `SEND` (R146): assemble, encode and hand over in one step. -/
def execSend (thr : Throttle) (s : State) : Outcome :=
  match profile s.cfgMode with
  | some t =>
    let p := assemblePacket thr s.cfgBidir
    let f := encodeFrame s.params.pauseBits p t
    .next ((txLoad f ((s.markIfOff.setPkt p).storeFrame f)).setTxLoaded.setRes (zext p))
  | none => .refused .reservedMode

end Sys2Proof.Machine
end

