-- ==== Sys2Proof/Machine/Dispatch.lean ====
section
/-! DEFINITION. Dispatch.lean: the meaning of every command of the opcode map (R78), one arm each. -/

namespace Sys2Proof.Machine

def exec (i : Instr) (s : State) : Host.Outcome State Fault Refusal :=
  match i with
  | .nop => Sys2Proof.Machine.execNop s
  | .csum d pol => Sys2Proof.Machine.execCsum d pol s
  | .verify p pol => Sys2Proof.Machine.execVerify p pol s
  | .assemble thr => Sys2Proof.Machine.execAssemble thr s
  | .lut grade => Sys2Proof.Machine.execLut grade s
  | .encode p => Sys2Proof.Machine.execEncode p s
  | .transmit => Sys2Proof.Machine.execTransmit s
  | .send thr => Sys2Proof.Machine.execSend thr s
  | .decode => Sys2Proof.Machine.execDecode s
  | .readErpm => Sys2Proof.Machine.execReadErpm s
  | .readStatus => Sys2Proof.Machine.execReadStatus s

end Sys2Proof.Machine
end

