-- ==== Sys2Proof/Machine/Command.lean ====
section
/-! DEFINITION. Command.lean: the block's step on one command word (R90). -/

namespace Sys2Proof.Machine

/-- `step(cmd)` (R90): the word is recorded, decoded, and performed or rejected, as one atomic step. -/
def issue (w : Word) (s : State) : Outcome :=
  match decode w with
  | .ok i => exec i (s.record (.command w))
  | .error cause => raiseIllegal cause w (s.record (.command w))

end Sys2Proof.Machine
end

