-- ==== Sys2Proof/Machine/Controller.lean ====
section
/-! DEFINITION. Controller.lean: the host agent's procedures `setThrottle`, `getERPM` and `getMotorRPM` (R180 to
R184), which drive the block by issuing commands. -/

namespace Sys2Proof.Machine

/-- `clamp(requested, 48, 2047) & 0x7FF` (R181), the clamp on the full 16-bit input before the mask. -/
def clampThrottle (requested : BitVec 16) : Throttle :=
  let v := requested.toNat
  let c := if v < Config.thrMin then Config.thrMin else if v > Config.thrMax then Config.thrMax else v
  (BitVec.ofNat 16 c &&& 0x7FF#16).setWidth 11

/-- `setThrottle(requested)` (R182): no command at all when the clamped value is the last one, else one `SEND`. -/
def callSetThrottle (requested : BitVec 16) (s : State) : Outcome :=
  let c := clampThrottle requested
  if c = s.lastThrottle then .next s else issue (encode (.send c)) (s.setLastThrottle c)

/-- `getERPM()` (R183): issues `DECODE` and returns `RES`. -/
def callGetERPM (s : State) : Outcome :=
  andThen (issue (encode .decode) s) fun t => .next (t.setHostResult t.res)

/-- `max(1, magnetCount / 2)` (R184). -/
def poleCount (magnetCount : BitVec 8) : Nat := max 1 (magnetCount.toNat / 2)

/-- `getMotorRPM(magnetCount)` (R184): calls `getERPM` and divides, rounding down. -/
def callGetMotorRPM (magnetCount : BitVec 8) (s : State) : Outcome :=
  andThen (callGetERPM s) fun t =>
    .next (t.setHostResult (BitVec.ofNat 32 (t.hostResult.toNat / poleCount magnetCount)))

end Sys2Proof.Machine
end

