-- ==== Sys2Proof/Machine/Transceiver.lean ====
section
/-! DEFINITION. Transceiver.lean: the transceiver's own step at a frame boundary (R58), and what one copy of a frame
puts on the line (R59). -/

namespace Sys2Proof.Machine

/-- The two segments of a symbol (R53, R59). -/
def symbolSegments (y : LineSymbol) : List Segment := [⟨y.level0, y.dur0⟩, ⟨y.level1, y.dur1⟩]

/-- The 34 segments of one transmission of a frame, in order (R59). -/
def frameSegments (f : Frame) : List Segment := f.toList.flatMap symbolSegments

/-- A frame handed over becomes the looped one (R58). -/
def startNext (s : State) : State :=
  match s.txfNext with
  | some g => { s with txf := some g, txfNext := none }
  | none => s

/-- The line carries one complete copy of the looped frame; with none, nothing is sent (R58, R59). -/
def carryFrame (s : State) : State :=
  match s.txf with
  | some h => { s with line := s.line ++ frameSegments h }
  | none => s

/-- The transceiver's frame-boundary step (R58). -/
def frameBoundary (s : State) : State := carryFrame (startNext s)

/-- One more whole copy of the frame being looped, while a frame handed over still waits: the spec leaves free how
many there are (R58, R224). -/
def frameRepeat (s : State) : State := carryFrame s

end Sys2Proof.Machine
end

