-- ==== Sys2Proof/Machine/Agents.lean ====
section
/-! DEFINITION. Agents.lean: which agent moves next and what it does. The host's commands and calls, the transceiver's
steps and resets come from outside, in the order `State.inputs` lists them (notes/assumptions/3.md). -/

namespace Sys2Proof.Machine

/-- What one input does. -/
def applyInput (i : Input) (s : State) : Outcome :=
  match i with
  | .command w => issue w s
  | .frameBoundary => .next (frameBoundary s)
  | .frameRepeat => .next (frameRepeat s)
  | .setThrottle r => callSetThrottle r s
  | .getERPM => callGetERPM s
  | .getMotorRPM m => callGetMotorRPM m s
  | .reset inp => resetInstance inp s

/-- One step of the machine: the next input is taken and done. With none pending the block is idle with its state held,
and the transceiver takes its step: it keeps looping after the host's last command (R94, R213). From a reserved
`CFG_MODE` there is no run (R222). -/
def advance (s : State) : Outcome :=
  if modeReserved s.cfgMode then .refused .reservedMode
  else
    match s.inputs with
    | [] => .next (frameBoundary s)
    | i :: rest => applyInput i (s.setInputs rest)

/-- The command word is put before everything else the outside will do, so that the next step takes it. -/
def placeCommand (w : Word) (s : State) : State := s.setInputs (.command w :: s.inputs)

end Sys2Proof.Machine
end

