-- ==== Sys2Proof/Machine/Step.lean ====
section
/-! DEFINITION. Step.lean: the machine's step, and the placing of a command where the next step takes it. -/

namespace Sys2Proof.Machine

/-- One step (R90, R94): the next input of the environment, done whole. -/
def step (s : State) : Host.Outcome State Fault Refusal := advance s

/-- `s` with a command of `nbits` bits on its command port. The block fetches nothing (R65): each word is presented
by the host, and a program is the list of words it issues (notes/assumptions/3.md). -/
def State.withFetchWord (s : State) (nbits w : Nat) : State := placeCommand (tableWord nbits w) s

end Sys2Proof.Machine
end

