-- ==== Sys2Proof/WellFormed.lean ====
section
/-! DEFINITION. WellFormed.lean: what a command and an assembler line must satisfy. Field widths hold by the types of
`Instr`; the one operand value the encoding admits and the spec reserves is a `LUT` grade of 5 to 7 (R75). An
assembler line is checked operand by operand against its field (R85). -/

namespace Sys2Proof

/-- The grade codes R20 gives a meaning: 0 to 4. -/
def gradeDefined (g : GradeCode) : Bool := decide (g.toNat < 5)

/-- No operand holds a reserved value (R75). An ill-formed command still decodes; it is rejected when it runs (R81,
R84). -/
def Instr.wellFormed : Instr → Bool
  | .nop => true
  | .csum _ _ => true
  | .verify _ _ => true
  | .assemble _ => true
  | .lut g => gradeDefined g
  | .encode _ => true
  | .transmit => true
  | .send _ => true
  | .decode => true
  | .readErpm => true
  | .readStatus => true

/-- Every operand fits its field: an assembler refuses one that does not, and never truncates (R85). -/
def AsmLine.wellFormed : AsmLine → Bool
  | .nop => true
  | .csum d p => decide (d < 2 ^ 12) && decide (p < 2)
  | .verify k p => decide (k < 2 ^ 16) && decide (p < 2)
  | .assemble t => decide (t < 2 ^ 11)
  | .lut g => decide (g < 2 ^ 3)
  | .encode k => decide (k < 2 ^ 16)
  | .transmit => true
  | .send t => decide (t < 2 ^ 11)
  | .decode => true
  | .readErpm => true
  | .readStatus => true
  | .csumStd d => decide (d < 2 ^ 12)
  | .csumInv d => decide (d < 2 ^ 12)
  | .verifyStd k => decide (k < 2 ^ 16)
  | .verifyInv k => decide (k < 2 ^ 16)
  | .lutNamed _ => true
  | .load t => decide (t < 2 ^ 11)

end Sys2Proof
end

