-- ==== Sys2Proof/Machine/Assembler.lean ====
section
/-! DEFINITION. Assembler.lean: the assembler of R85 over the characters of a line, and the pseudo-commands of R86.
No hardware holds any of this; it is how programs of the spec are written. -/

namespace Sys2Proof.Machine

/-- The value of a digit in base 10 or 16 (R85). -/
def digitValue (base : Nat) (c : Char) : Option Nat :=
  let n := c.toNat
  if 48 ≤ n && n ≤ 57 then some (n - 48)
  else if base == 16 && 97 ≤ n && n ≤ 102 then some (n - 87)
  else if base == 16 && 65 ≤ n && n ≤ 70 then some (n - 55)
  else none

/-- The value of a run of digits, after those already read. -/
def readDigits (base : Nat) : List Char → Nat → Option Nat
  | [], acc => some acc
  | c :: cs, acc => (digitValue base c).bind fun d => readDigits base cs (acc * base + d)

/-- A decimal or `0x` hexadecimal operand (R85). -/
def readNumber : List Char → Option Nat
  | '0' :: 'x' :: c :: cs => readDigits 16 (c :: cs) 0
  | c :: cs => readDigits 10 (c :: cs) 0
  | [] => none

/-- A grade operand: a code, or one of the names `OFF`, `G150`, `G300`, `G600`, `G1200` (R85). -/
def readGrade (cs : List Char) : Option Nat :=
  match String.ofList cs with
  | "OFF" => some 0
  | "G150" => some 1
  | "G300" => some 2
  | "G600" => some 3
  | "G1200" => some 4
  | _ => readNumber cs

/-- What stands before the comment (R85). -/
def beforeComment (cs : List Char) : List Char := cs.takeWhile (· != ';')

/-- A space or a tab. -/
def isBlank (c : Char) : Bool := c == ' ' || c == '\t'

/-- The characters without the blanks at either end. -/
def trimBlanks (cs : List Char) : List Char := ((cs.dropWhile isBlank).reverse.dropWhile isBlank).reverse

/-- The pieces between commas. -/
def splitCommas : List Char → List (List Char)
  | [] => [[]]
  | c :: cs =>
    if c == ',' then [] :: splitCommas cs
    else
      match splitCommas cs with
      | x :: xs => (c :: x) :: xs
      | [] => [[c]]

/-- The line a mnemonic and its operands make (R85, R86). -/
def readLine (mnemonic : String) (operands : List (List Char)) : Option AsmLine :=
  match mnemonic, operands with
  | "NOP", [] => some .nop
  | "CSUM", [d, p] => (readNumber d).bind fun d => (readNumber p).map fun p => .csum d p
  | "VERIFY", [k, p] => (readNumber k).bind fun k => (readNumber p).map fun p => .verify k p
  | "ASSEMBLE", [t] => (readNumber t).map .assemble
  | "LUT", [g] => (readGrade g).map .lut
  | "ENCODE", [k] => (readNumber k).map .encode
  | "TRANSMIT", [] => some .transmit
  | "SEND", [t] => (readNumber t).map .send
  | "DECODE", [] => some .decode
  | "READ_ERPM", [] => some .readErpm
  | "READ_STATUS", [] => some .readStatus
  | "CSUM.STD", [d] => (readNumber d).map .csumStd
  | "CSUM.INV", [d] => (readNumber d).map .csumInv
  | "VERIFY.STD", [k] => (readNumber k).map .verifyStd
  | "VERIFY.INV", [k] => (readNumber k).map .verifyInv
  | "LUT.OFF", [] => some (.lutNamed .off)
  | "LUT.G150", [] => some (.lutNamed .g150)
  | "LUT.G300", [] => some (.lutNamed .g300)
  | "LUT.G600", [] => some (.lutNamed .g600)
  | "LUT.G1200", [] => some (.lutNamed .g1200)
  | "LOAD", [t] => (readNumber t).map .load
  | _, _ => none

/-- The command on one line of source, comment and blanks left out (R85). A line with no command reads as none. -/
def parseLine (cs : List Char) : Option AsmLine :=
  let body := trimBlanks (beforeComment cs)
  let rest := trimBlanks (body.dropWhile fun c => !isBlank c)
  readLine (String.ofList (body.takeWhile fun c => !isBlank c))
    (if rest.isEmpty then [] else (splitCommas rest).map trimBlanks)

/-- The one command a line stands for, its operands put into their fields; none for `LOAD`, which is three (R86). -/
def lineInstr : AsmLine → Option Instr
  | .nop => some .nop
  | .csum d p => some (.csum (BitVec.ofNat 12 d) (p == 1))
  | .verify k p => some (.verify (BitVec.ofNat 16 k) (p == 1))
  | .assemble t => some (.assemble (BitVec.ofNat 11 t))
  | .lut g => some (.lut (BitVec.ofNat 3 g))
  | .encode k => some (.encode (BitVec.ofNat 16 k))
  | .transmit => some .transmit
  | .send t => some (.send (BitVec.ofNat 11 t))
  | .decode => some .decode
  | .readErpm => some .readErpm
  | .readStatus => some .readStatus
  | .csumStd d => some (.csum (BitVec.ofNat 12 d) false)
  | .csumInv d => some (.csum (BitVec.ofNat 12 d) true)
  | .verifyStd k => some (.verify (BitVec.ofNat 16 k) false)
  | .verifyInv k => some (.verify (BitVec.ofNat 16 k) true)
  | .lutNamed g => some (.lut (BitVec.ofNat 3 g.code))
  | .load _ => none

/-- The word the assembler writes for a one-command line. It refuses an operand that does not fit (R85). -/
def assembleLine (l : AsmLine) : Option Word :=
  if l.wellFormed then (lineInstr l).map encode else none

/-- `LOAD t` (R86): `ASSEMBLE t`, then `ENCODE` of the value `RES` then holds, then `TRANSMIT`, as three commands of
the block's one stream. -/
def loadSequence (t : Throttle) (s : State) : Outcome :=
  andThen (issue (encode (.assemble t)) s) fun s1 =>
    andThen (issue (encode (.encode (pkt16Field s1.res))) s1) fun s2 => issue (encode .transmit) s2

/-- A line run on the machine: its command issued, or the three of `LOAD` (R86). A line whose operand does not fit is
refused, and nothing is issued (R85). -/
def runLine (l : AsmLine) (s : State) : Option Outcome :=
  if l.wellFormed then
    match lineInstr l, l with
    | some i, _ => some (issue (encode i) s)
    | none, .load t => some (loadSequence (BitVec.ofNat 11 t) s)
    | none, _ => none
  else none

end Sys2Proof.Machine
end

