-- ==== Sys2Proof/Machine/Bus.lean ====
section
/-! DEFINITION. Bus.lean: how a platform that maps the command port and `RES` onto a byte-addressed bus lays a word
out, in the byte order `BUS_ENDIAN` (R51, R54). The block itself sees whole words only. -/

namespace Sys2Proof.Machine

/-- The command word that four bytes, at rising bus addresses, deliver (R54). -/
def busWord (e : Endian) (b0 b1 b2 b3 : Byte) : Word :=
  match e with
  | .little => place b3 24 ||| place b2 16 ||| place b1 8 ||| place b0 0
  | .big => place b0 24 ||| place b1 16 ||| place b2 8 ||| place b3 0

/-- The byte of a word that stands at bus offset `k`, 0 to 3 (R51). -/
def busByte (e : Endian) (w : Word) (k : Nat) : Byte :=
  match e with
  | .little => w.extractLsb' (8 * k) 8
  | .big => w.extractLsb' (8 * (3 - k)) 8

end Sys2Proof.Machine
end

