-- ==== Sys2Proof/Machine/Fleet.lean ====
section
/-! DEFINITION. Fleet.lean: several instances, one per motor: the product of independent machines (R211). -/

namespace Sys2Proof.Machine

/-- One step of the instance in place `k`; the others do not move, and no state is shared: its receive channel is its
own, number `k` (R211). With no instance in that place nothing moves. -/
def stepInstance (k : Nat) (fleet : List State) : Host.Outcome (List State) Fault Refusal :=
  match fleet[k]? with
  | none => .next fleet
  | some s =>
    match step (s.onChannel k) with
    | .next t => .next (fleet.set k t)
    | .fault f => .fault f
    | .refused r => .refused r

end Sys2Proof.Machine
end

