-- ==== Sys2Proof/Safety.lean ====
section
/-! DEFINITION. Safety.lean: what a run is judged by: the clean state claims take as a premise (R35, R202, R203), the
observation at a run's end (R94), and the properties every step keeps. -/

namespace Sys2Proof.Machine

/-- `FAULT` clear and `PRECOND_OFF` clear: the premises of a claim about a run (R35, R202, R203). -/
abbrev State.Clean (s : State) : Prop := s.faults = [] ∧ s.precondOff = false

/-- What R94 lets be observed at the end of a run. -/
structure Observation where
  res : Word
  pkt : Packet
  frame : Frame
  frameValid : Bool
  txLoaded : Bool
  lastErpm : Word
  errIllegal : Bool
  faults : List FaultRecord
  precondOff : Bool
  txf : Option Frame
  txfNext : Option Frame
  hist : List Event
deriving DecidableEq, Repr

/-- The observation of a final state (R94). -/
def State.observe (s : State) : Observation :=
  { res := s.res, pkt := s.pkt, frame := s.frame, frameValid := s.frameValid, txLoaded := s.txLoaded,
    lastErpm := s.lastErpm, errIllegal := s.errIllegal, faults := s.faults, precondOff := s.precondOff, txf := s.txf,
    txfNext := s.txfNext, hist := s.hist }

/-- The transceiver's own step, which the host has no part in (R58). -/
def Input.isTransceiver : Input → Bool
  | .command _ => false
  | .frameBoundary => true
  | .frameRepeat => true
  | .setThrottle _ => false
  | .getERPM => false
  | .getMotorRPM _ => false
  | .reset _ => false

/-- The run has ended: the host issues nothing further. The transceiver's steps may still be to come, and it keeps
looping (R94). -/
abbrev State.Ended (s : State) : Prop := ∀ i ∈ s.inputs, i.isTransceiver = true

/-- An answer within the bounds of R60: at most `RX_CAP` symbols, durations of `DUR_W` bits. -/
def AnswerBounded (p : Params) : Option (List LineSymbol) → Prop
  | none => True
  | some l => l.length ≤ p.rxCap ∧ ∀ y ∈ l, y.fits p.durW = true

/-- The frames handed to the transceiver, in order, that a history records. -/
def loadsOf : List Event → List Frame
  | [] => []
  | .txLoad f :: es => f :: loadsOf es
  | .command _ :: es => loadsOf es
  | .rxPoll _ :: es => loadsOf es

/-- The frame the transceiver will loop once it has taken its next step (R58). -/
def State.lastHeld (s : State) : Option Frame := s.txfNext.or s.txf

/-- The configuration is one of this hardware: a defined grade and legal parameters (R8, R222). -/
abbrev State.ConfigLegal (s : State) : Prop := modeReserved s.cfgMode = false ∧ s.params.Legal

/-- Every duration the machine holds or has sent fits `DUR_W` bits, and every recorded answer is within its bounds
(R8, R13, R26, R60). -/
def State.DurationsFit (s : State) : Prop :=
  s.frame.fits s.params.durW = true ∧ (∀ f, s.txf = some f → f.fits s.params.durW = true) ∧
    (∀ f, s.txfNext = some f → f.fits s.params.durW = true) ∧ (∀ g ∈ s.line, g.ticks < 2 ^ s.params.durW) ∧
    ∀ a, .rxPoll a ∈ s.hist → AnswerBounded s.params a

/-- The frame is one the encoder builds at the instance's grade (R102, R140). -/
def State.Encoded (s : State) (f : Frame) : Prop :=
  ∃ p t, profile s.cfgMode = some t ∧ f = encodeFrame s.params.pauseBits p t

/-- `FRAME_VALID` says that `FRAME` holds an encoded frame (R27), and only encoded frames are ever handed over. -/
def State.FramesEncoded (s : State) : Prop :=
  (s.frameValid = true → s.Encoded s.frame) ∧ ∀ f ∈ loadsOf s.hist, s.Encoded f

/-- What `TX_LOADED` says (R27), and where the frame handed over last is: waiting in `TXF_NEXT`, or looping (R58). -/
def State.TransmitterSound (s : State) : Prop :=
  (s.txLoaded = true ↔ loadsOf s.hist ≠ []) ∧ (s.txLoaded = true → s.frameValid = true) ∧
    s.lastHeld = (loadsOf s.hist).getLast? ∧ ∀ f, s.txf = some f → f ∈ loadsOf s.hist

/-- The line has carried whole frames only, each of them one that was handed over (R58, R59, R147). -/
def State.LineWhole (s : State) : Prop :=
  ∃ fs : List Frame, s.line = fs.flatMap frameSegments ∧ ∀ f ∈ fs, f ∈ loadsOf s.hist

/-- What the record's cause says of its word (R201). -/
def FaultRecord.Explained (r : FaultRecord) : Prop :=
  match r.cause with
  | .illOpcode => 0xB ≤ (opField r.word).toNat
  | .illReserved => (opField r.word).toNat < 0xB ∧ ∀ i, encode i ≠ r.word
  | .illGrade => ∃ g : GradeCode, 5 ≤ g.toNat ∧ r.word = encode (.lut g)
  | .illNoFrame => r.word = encode .transmit

/-- `ERR_ILLEGAL` and `FAULT` say the same (R30, R35), `FAULT` is in its one canonical form, and each of its records
is of a command that was taken and carries the cause R201 gives that word. -/
def State.FaultsSound (s : State) : Prop :=
  (s.errIllegal = true ↔ s.faults ≠ []) ∧ s.faults.Pairwise (fun a b => a.key < b.key) ∧
    ∀ r ∈ s.faults, r.Explained ∧ .command r.word ∈ s.hist

/-- `LAST_ERPM` is its reset value or a throttle of the band times the scale (R28, R166, R167). -/
def State.TelemetrySound (s : State) : Prop :=
  s.lastErpm = 0 ∨ ∃ n, Config.thrMin ≤ n ∧ n ≤ Config.thrMax ∧ s.lastErpm = BitVec.ofNat 32 (n * s.params.erpmScale)

/-- `PKT` is its reset value or a packet the assembler builds for this instance (R25, R125, R126). -/
def State.PacketSound (s : State) : Prop := s.pkt = 0 ∨ ∃ t, s.pkt = assemblePacket t s.cfgBidir

/-- `PRECOND_OFF` is set exactly when a frame was encoded on an OFF instance (R35, R143). -/
def State.OffMarkSound (s : State) : Prop := s.precondOff = (s.frameValid && s.cfgMode == 0)

/-- The host's `lastThrottle` is its reset value or within the clamp (R36, R181). -/
def State.HostSound (s : State) : Prop := s.lastThrottle = 0 ∨ Config.thrMin ≤ s.lastThrottle.toNat

/-- Under host-only use `PKT` holds the packet of the last throttle the host sent (R186). -/
def State.HostInStep (s : State) : Prop :=
  s.lastThrottle = 0 ∨ s.pkt = assemblePacket s.lastThrottle s.cfgBidir

/-- The outside acts through the host procedures and the transceiver only (R186). -/
def Input.hostOnly : Input → Bool
  | .command _ => false
  | .frameBoundary => true
  | .frameRepeat => true
  | .setThrottle _ => true
  | .getERPM => true
  | .getMotorRPM _ => true
  | .reset _ => false

/-- The command runs the frame encoder. -/
def drivesEncoder : Instr → Bool
  | .nop => false
  | .csum _ _ => false
  | .verify _ _ => false
  | .assemble _ => false
  | .lut _ => false
  | .encode _ => true
  | .transmit => false
  | .send _ => true
  | .decode => false
  | .readErpm => false
  | .readStatus => false

/-- The input keeps the duties R185 lays on the host: no reserved word, and no driving of the encoder on an OFF
instance, by command or by call (R228). Its other two duties, one command at a time and one host an instance, no list
of inputs can break. -/
def Input.dutiful (mode : GradeCode) : Input → Bool
  | .command w =>
    match decode w with
    | .ok i => mode != 0 || !drivesEncoder i
    | .error _ => false
  | .frameBoundary => true
  | .frameRepeat => true
  | .setThrottle _ => mode != 0
  | .getERPM => true
  | .getMotorRPM _ => true
  | .reset _ => true

/-- The input is a reset of the instance. -/
def Input.isReset : Input → Bool
  | .command _ => false
  | .frameBoundary => false
  | .frameRepeat => false
  | .setThrottle _ => false
  | .getERPM => false
  | .getMotorRPM _ => false
  | .reset _ => true

end Sys2Proof.Machine
end

