-- ==== Sys2Proof/Certificates/Slice0/Obligations.lean ====
section
/-! DEFINITION. Obligations.lean: the statements for the provers. OBLIGATIONS.json says which rule each formalises. -/

open Sys2Proof Sys2Proof.Machine

/-! ### Encoding -/

/-- Words written out from the encodings of R71 to R76 decode to the commands they stand for. -/
def Obligations.WrittenWordsDecode : Prop :=
  decode 0x00000000 = .ok .nop ∧ decode 0x10001060 = .ok (.csum 0x060 true) ∧
  decode 0x10000FFF = .ok (.csum 0xFFF false) ∧ decode 0x20013E9B = .ok (.verify 0x3E9B true) ∧
  decode 0x300007FF = .ok (.assemble 2047) ∧ decode 0x40000004 = .ok (.lut 4) ∧
  decode 0x50000606 = .ok (.encode 0x0606) ∧ decode 0x60000000 = .ok .transmit ∧
  decode 0x700001F4 = .ok (.send 500) ∧ decode 0x80000000 = .ok .decode ∧
  decode 0x90000000 = .ok .readErpm ∧ decode 0xA0000000 = .ok .readStatus

/-- R78, R84: a word under a row's mask equal to the row's match is that row's command with its fields taken as they
stand, no word selects two rows, and a word that selects none is illegal. The value and state checks of R81 are no
part of decoding: a `LUT` of any grade decodes. -/
def Obligations.OpcodeMapDecodesEveryWord : Prop :=
  (∀ w : Word, (w &&& 0xFFFFFFFF = 0x00000000 → decode w = .ok .nop) ∧
    (w &&& 0xFFFFE000 = 0x10000000 → decode w = .ok (.csum (w.extractLsb' 0 12) (w.getLsbD 12))) ∧
    (w &&& 0xFFFE0000 = 0x20000000 → decode w = .ok (.verify (w.extractLsb' 0 16) (w.getLsbD 16))) ∧
    (w &&& 0xFFFFF800 = 0x30000000 → decode w = .ok (.assemble (w.extractLsb' 0 11))) ∧
    (w &&& 0xFFFFFFF8 = 0x40000000 → decode w = .ok (.lut (w.extractLsb' 0 3))) ∧
    (w &&& 0xFFFF0000 = 0x50000000 → decode w = .ok (.encode (w.extractLsb' 0 16))) ∧
    (w &&& 0xFFFFFFFF = 0x60000000 → decode w = .ok .transmit) ∧
    (w &&& 0xFFFFF800 = 0x70000000 → decode w = .ok (.send (w.extractLsb' 0 11))) ∧
    (w &&& 0xFFFFFFFF = 0x80000000 → decode w = .ok .decode) ∧
    (w &&& 0xFFFFFFFF = 0x90000000 → decode w = .ok .readErpm) ∧
    (w &&& 0xFFFFFFFF = 0xA0000000 → decode w = .ok .readStatus)) ∧
  (∀ (w : Word) (r1 r2 : OpRow), r1 ∈ opRows → r2 ∈ opRows → w &&& r1.mask = r1.matchBits →
    w &&& r2.mask = r2.matchBits → r1.matchBits = r2.matchBits ∧ r1.mask = r2.mask) ∧
  (∀ w : Word, (∀ r ∈ opRows, w &&& r.mask ≠ r.matchBits) → ∃ c, decode w = .error c)

/-- For every command, with every operand at every value, decoding its word gives it back. -/
def Obligations.DecodeInvertsEncode : Prop := ∀ i : Instr, decode (encode i) = .ok i

/-- A word that decodes is the word of the command it decodes to: each command has one word. -/
def Obligations.EncodeInvertsDecode : Prop := ∀ (w : Word) (i : Instr), decode w = .ok i → encode i = w

/-- R79: a word with opcode 0xB to 0xF is rejected, whatever its low 28 bits, and the rejection changes only the error
flag and the model's record (and the history, which holds every command). -/
def Obligations.ReservedOpcodesAreRejected : Prop :=
  ∀ (w : Word) (s : State), 0xB ≤ (w.extractLsb' 28 4).toNat →
    issue w s = .next { s with
      hist := s.hist ++ [.command w]
      errIllegal := true
      faults := insertFault { cause := .illOpcode, word := w } s.faults }

/-- R80: a word of a defined opcode with a 1 in a reserved bit of its format is rejected, format by format (R71 to
R76); the three words the rule gives are examples. -/
def Obligations.ReservedBitsAreRejected : Prop :=
  (∀ (w : Word) (s : State),
    ((w.extractLsb' 28 4 = 0x0 ∨ w.extractLsb' 28 4 = 0x6 ∨ w.extractLsb' 28 4 = 0x8 ∨ w.extractLsb' 28 4 = 0x9 ∨
        w.extractLsb' 28 4 = 0xA) ∧ w.extractLsb' 0 28 ≠ 0) ∨
      (w.extractLsb' 28 4 = 0x1 ∧ w.extractLsb' 13 15 ≠ 0) ∨ (w.extractLsb' 28 4 = 0x2 ∧ w.extractLsb' 17 11 ≠ 0) ∨
      ((w.extractLsb' 28 4 = 0x3 ∨ w.extractLsb' 28 4 = 0x7) ∧ w.extractLsb' 11 17 ≠ 0) ∨
      (w.extractLsb' 28 4 = 0x4 ∧ w.extractLsb' 3 25 ≠ 0) ∨ (w.extractLsb' 28 4 = 0x5 ∧ w.extractLsb' 16 12 ≠ 0) →
    issue w s = .next { s with
      hist := s.hist ++ [.command w]
      errIllegal := true
      faults := insertFault { cause := .illReserved, word := w } s.faults }) ∧
  decode 0x00000001 = .error .illReserved ∧ decode 0x10002000 = .error .illReserved ∧
  decode 0x30000800 = .error .illReserved

/-! ### The step -/

/-- R90: when the next input is a command word that decodes, the step is the command's meaning on the state with the
word recorded in the history and the input taken. -/
def Obligations.StepRunsTheDecodedCommand : Prop :=
  ∀ (s : State) (w : Word) (i : Instr) (rest : List Input), modeReserved s.cfgMode = false →
    s.inputs = .command w :: rest → decode w = .ok i →
    step s = exec i { s with inputs := rest, hist := s.hist ++ [.command w] }

/-- R92: every cause of rejection, by word, by `LUT` grade and by `TRANSMIT` without a frame, leaves the state as it
was but for `ERR_ILLEGAL`, the record of the word in `FAULT`, and the history; in particular `RES` is unchanged. -/
def Obligations.RejectionIsPrecise : Prop :=
  ∀ (s : State) (w : Word) (rest : List Input), modeReserved s.cfgMode = false → s.inputs = .command w :: rest →
    ((∃ c, decode w = .error c) ∨ (∃ g : GradeCode, 5 ≤ g.toNat ∧ decode w = .ok (.lut g)) ∨
      (decode w = .ok .transmit ∧ s.frameValid = false)) →
    ∃ c, step s = .next { s with
      inputs := rest
      hist := s.hist ++ [.command w]
      errIllegal := true
      faults := insertFault { cause := c, word := w } s.faults }

/-- R90: every step completes. From a defined grade, whatever the outside does next, the machine goes on, but for a
reset to a reserved grade. -/
def Obligations.EveryStepCompletes : Prop :=
  ∀ s : State, modeReserved s.cfgMode = false →
    (∀ inp rest, s.inputs = .reset inp :: rest → modeReserved inp.mode = false) → ∃ t, step s = .next t

/-- R222: there is no run from a reserved `CFG_MODE`, and no reset to one. -/
def Obligations.ReservedModeIsRefused : Prop :=
  (∀ s : State, 5 ≤ s.cfgMode.toNat → step s = .refused .reservedMode) ∧
  ∀ (s : State) (inp : ResetInputs) (rest : List Input), s.inputs = .reset inp :: rest → 5 ≤ inp.mode.toNat →
    step s = .refused .reservedMode

/-! ### Control commands and the timing table -/

/-- R91: `NOP` is the word 0 exactly; it changes nothing but the history, and a `NOP`-opcode word with any other bit
set is rejected. -/
def Obligations.NopHasNoEffect : Prop :=
  (∀ s : State, exec .nop s = .next s) ∧
  (∀ s : State, issue 0x00000000 s = .next { s with hist := s.hist ++ [.command 0x00000000] }) ∧
  ∀ w : Word, w.extractLsb' 28 4 = 0x0 → w ≠ 0x00000000 → decode w = .error .illReserved

/-- R93: `READ_STATUS`, the word 0xA0000000 exactly, writes only `RES`, whose bits are those of R29. -/
def Obligations.ReadStatusShowsFlagsAndConfiguration : Prop :=
  (∀ w : Word, decode w = .ok .readStatus ↔ w = 0xA0000000) ∧
  ∀ s : State, ∃ v : Word, exec .readStatus s = .next { s with res := v } ∧ v.getLsbD 0 = s.errIllegal ∧
    v.getLsbD 1 = s.frameValid ∧ v.getLsbD 2 = s.txLoaded ∧ v.getLsbD 3 = false ∧
    v.extractLsb' 4 3 = s.cfgMode ∧ v.getLsbD 7 = s.cfgBidir ∧ v.getLsbD 8 = s.cfgRxPresent ∧ v.extractLsb' 9 23 = 0

/-- R104: `LUT`, the word `0x4000000g`, packs the row of one grade into `RES` and changes nothing else; a reserved
grade is rejected. -/
def Obligations.LutReturnsTheTimingTable : Prop :=
  (∀ g : GradeCode, decode (0x40000000 ||| g.setWidth 32) = .ok (.lut g)) ∧
  ∀ s : State, exec (.lut 0) s = .next { s with res := 0x00000000 } ∧
    exec (.lut 1) s = .next { s with res := 0x00301840 } ∧ exec (.lut 2) s = .next { s with res := 0x00180C20 } ∧
    exec (.lut 3) s = .next { s with res := 0x000C0610 } ∧ exec (.lut 4) s = .next { s with res := 0x00060308 } ∧
    ∀ g : GradeCode, 5 ≤ g.toNat → exec (.lut g) s = .next { s with
      errIllegal := true
      faults := insertFault { cause := .illGrade, word := 0x40000000 ||| g.setWidth 32 } s.faults }

/-- R100, R106: the five rows of the table and no others; in every row the high times are ordered within the bit period
and fit their widths; off OFF they are 3/8 and 3/4 of it, so that a 1 is high for longer than low and a 0 for less. -/
def Obligations.TimingTableIsOrdered : Prop :=
  (profile 0 = some ⟨0, 0, 0⟩ ∧ profile 1 = some ⟨64, 24, 48⟩ ∧ profile 2 = some ⟨32, 12, 24⟩ ∧
    profile 3 = some ⟨16, 6, 12⟩ ∧ profile 4 = some ⟨8, 3, 6⟩ ∧ ∀ g : GradeCode, 5 ≤ g.toNat → profile g = none) ∧
  ∀ (g : GradeCode) (t : TimingProfile), profile g = some t →
    t.hi0 ≤ t.hi1 ∧ t.hi1 ≤ t.tpb ∧ t.tpb < 2 ^ 7 ∧ t.hi0 < 2 ^ 6 ∧ t.hi1 < 2 ^ 6 ∧
      (g ≠ 0 → 8 * t.hi0 = 3 * t.tpb ∧ 4 * t.hi1 = 3 * t.tpb ∧ t.hi1 = 2 * t.hi0 ∧ t.tpb - t.hi1 < t.hi1 ∧
        t.hi0 < t.tpb - t.hi0)

/-! ### Checksum generator and packet assembler -/

/-- R121: `CSUM` writes only `RES`, with the exclusive-or of the three nibbles of `DATA12`, or that with all four bits
changed for the inverted polarity. -/
def Obligations.CsumFoldsTheNibbles : Prop :=
  ∀ (d : Data12) (s : State),
    exec (.csum d false) s = .next { s with
      res := (d.extractLsb' 0 4 ^^^ d.extractLsb' 4 4 ^^^ d.extractLsb' 8 4).setWidth 32 } ∧
    exec (.csum d true) s = .next { s with
      res := ((d.extractLsb' 0 4 ^^^ d.extractLsb' 4 4 ^^^ d.extractLsb' 8 4) ^^^ 0xF#4).setWidth 32 }

/-- R122: the two polarities differ in all four bits, so a packet that verifies with one never verifies with the
other. -/
def Obligations.PolaritiesNeverAgree : Prop :=
  (∀ d : Data12, checksum d true = checksum d false ^^^ 0xF#4 ∧
    ∀ i, i < 4 → (checksum d true).getLsbD i ≠ (checksum d false).getLsbD i) ∧
  ∀ (p : Packet) (inv : Bool), verifyPacket p inv = true → verifyPacket p (!inv) = false

/-- R128: `VERIFY` writes only `RES`: 1 when the checksum field of the packet is the fold of its three other nibbles
(with all bits changed for the inverted polarity), else 0. -/
def Obligations.VerifyComparesTheChecksum : Prop :=
  ∀ (p : Packet) (inv : Bool) (s : State), exec (.verify p inv) s = .next { s with
    res := if p.extractLsb' 0 4 =
        (p.extractLsb' 4 4 ^^^ p.extractLsb' 8 4 ^^^ p.extractLsb' 12 4) ^^^ (if inv then 0xF#4 else 0x0#4)
      then 1 else 0 }

/-- R132: an assembled packet verifies with its own polarity and not with the other, and holds its throttle and its
polarity as the telemetry bit. -/
def Obligations.AssembledPacketsVerify : Prop :=
  ∀ (thr : Throttle) (b : Bool), verifyPacket (assemblePacket thr b) b = true ∧
    verifyPacket (assemblePacket thr b) (!b) = false ∧ (assemblePacket thr b).extractLsb' 5 11 = thr ∧
    (assemblePacket thr b).getLsbD 4 = b

/-- R131, R125, R126: `ASSEMBLE` writes `PKT` and `RES` only, with the packet whose throttle field is the operand,
whose telemetry bit is `CFG_BIDIR`, and whose checksum is the fold of the other nibbles in the polarity `CFG_BIDIR`
selects. -/
def Obligations.AssembleWritesThePacket : Prop :=
  ∀ (thr : Throttle) (s : State), ∃ p : Packet,
    exec (.assemble thr) s = .next { s with pkt := p, res := p.setWidth 32 } ∧ p.extractLsb' 5 11 = thr ∧
    p.getLsbD 4 = s.cfgBidir ∧
    p.extractLsb' 0 4 = (p.extractLsb' 4 4 ^^^ p.extractLsb' 8 4 ^^^ p.extractLsb' 12 4) ^^^
      (if s.cfgBidir then 0xF#4 else 0x0#4)

/-! ### Frame encoder and hand-off -/

/-- R140, R141, R144: `ENCODE` writes all 17 entries of `FRAME` at the configured grade, `FRAME_VALID` and `RES`, sets
the OFF mark in OFF mode, and touches nothing else, the packet register and the transceiver included. -/
def Obligations.EncodeBuildsTheFrame : Prop :=
  ∀ (p : Packet) (s : State), modeReserved s.cfgMode = false → ∃ (t : TimingProfile) (f : Frame),
    profile s.cfgMode = some t ∧
    exec (.encode p) s = .next { s with
      frame := f
      frameValid := true
      precondOff := s.precondOff || s.cfgMode == 0
      res := 17 } ∧
    (∀ i (h : i < 16), f[i].level0 = .high ∧ f[i].level1 = .low ∧
      f[i].dur0 = (if p.getLsbD (15 - i) then t.hi1 else t.hi0) ∧
      f[i].dur1 = t.tpb - (if p.getLsbD (15 - i) then t.hi1 else t.hi0)) ∧
    f[16] = { level0 := .low, dur0 := t.tpb * s.params.pauseBits, level1 := .low, dur1 := 0 }

/-- R143: in OFF mode `ENCODE` and `SEND` complete with 17 symbols of no duration and set the model's mark, and no
error bit. -/
def Obligations.OffFramesHaveNoDuration : Prop :=
  ∀ (s : State) (i : Instr), s.cfgMode = 0 → ((∃ p, i = .encode p) ∨ ∃ thr, i = .send thr) →
    ∃ t, exec i s = .next t ∧ t.precondOff = true ∧ t.errIllegal = s.errIllegal ∧ t.faults = s.faults ∧
      (∀ k (h : k < 16), t.frame[k] = { level0 := .high, dur0 := 0, level1 := .low, dur1 := 0 }) ∧
      t.frame[16] = { level0 := .low, dur0 := 0, level1 := .low, dur1 := 0 }

/-- R148: one transmission of an encoded frame at a grade other than OFF lasts `TPB × (16 + PAUSE_BITS)` ticks; each
bit period is `TPB` ticks, high for the bit's high time and low for the rest; it ends `TPB × PAUSE_BITS` ticks low. -/
def Obligations.TransmissionHasTheGradeTiming : Prop :=
  ∀ (g : GradeCode) (t : TimingProfile) (pb : Nat) (p : Packet), g ≠ 0 → profile g = some t →
    (frameSegments (encodeFrame pb p t)).length = 34 ∧
    ((frameSegments (encodeFrame pb p t)).map Segment.ticks).sum = t.tpb * (16 + pb) ∧
    (∀ i (h : i < 16), symbolSegments (encodeFrame pb p t)[i] =
        [⟨.high, if p.getLsbD (15 - i) then t.hi1 else t.hi0⟩,
         ⟨.low, t.tpb - if p.getLsbD (15 - i) then t.hi1 else t.hi0⟩] ∧
      (encodeFrame pb p t)[i].dur0 + (encodeFrame pb p t)[i].dur1 = t.tpb) ∧
    symbolSegments (encodeFrame pb p t)[16] = [⟨.low, t.tpb * pb⟩, ⟨.low, 0⟩]

/-- R145: `TRANSMIT`, the word 0x60000000 exactly, with a frame hands over a copy of it, sets `TX_LOADED` and writes 17
to `RES`, and nothing else; without one it is rejected. -/
def Obligations.TransmitHandsOverTheFrame : Prop :=
  (∀ w : Word, decode w = .ok .transmit ↔ w = 0x60000000) ∧
  ∀ s : State, (s.frameValid = true → exec .transmit s = .next { s with
      txfNext := some s.frame
      hist := s.hist ++ [.txLoad s.frame]
      txLoaded := true
      res := 17 }) ∧
    (s.frameValid = false → exec .transmit s = .next { s with
      errIllegal := true
      faults := insertFault { cause := .illNoFrame, word := 0x60000000 } s.faults })

/-- R146: `SEND` writes the packet, its frame and both flags, hands the frame over, and leaves the packet in `RES`; it
changes nothing else. -/
def Obligations.SendAssemblesEncodesAndHandsOver : Prop :=
  ∀ (thr : Throttle) (s : State), modeReserved s.cfgMode = false →
    ∃ (t : TimingProfile) (p : Packet) (f : Frame), profile s.cfgMode = some t ∧
    exec (.send thr) s = .next { s with
      pkt := p
      frame := f
      frameValid := true
      precondOff := s.precondOff || s.cfgMode == 0
      txfNext := some f
      hist := s.hist ++ [.txLoad f]
      txLoaded := true
      res := p.setWidth 32 } ∧
    p.extractLsb' 5 11 = thr ∧ p.getLsbD 4 = s.cfgBidir ∧
    p.extractLsb' 0 4 = (p.extractLsb' 4 4 ^^^ p.extractLsb' 8 4 ^^^ p.extractLsb' 12 4) ^^^
      (if s.cfgBidir then 0xF#4 else 0x0#4) ∧
    (∀ i (h : i < 16), f[i].level0 = .high ∧ f[i].level1 = .low ∧
      f[i].dur0 = (if p.getLsbD (15 - i) then t.hi1 else t.hi0) ∧
      f[i].dur1 = t.tpb - (if p.getLsbD (15 - i) then t.hi1 else t.hi0)) ∧
    f[16] = { level0 := .low, dur0 := t.tpb * s.params.pauseBits, level1 := .low, dur1 := 0 }

/-- R86: `LOAD t`, which is `ASSEMBLE t`, `ENCODE` of the `RES` value, `TRANSMIT`, leaves the packet, the frame, the
flags and the transceiver as `SEND t` does; `RES` ends as 17 where `SEND` leaves the packet. -/
def Obligations.LoadEndsAsSend : Prop :=
  ∀ (thr : Throttle) (s : State), modeReserved s.cfgMode = false → ∃ t u, issue (encode (.send thr)) s = .next t ∧
    loadSequence thr s = .next u ∧ u.pkt = t.pkt ∧ u.frame = t.frame ∧ u.frameValid = t.frameValid ∧
    u.txLoaded = t.txLoaded ∧ u.txf = t.txf ∧ u.txfNext = t.txfNext ∧ u.precondOff = t.precondOff ∧ u.res = 17 ∧
    t.res = t.pkt.setWidth 32

/-! ### Frame decoder and telemetry -/

/-- R162: the bit of a symbol is 1 exactly when its high time is more than half its total rounded down, which is exactly
when it is more than half in exact arithmetic, and exactly when the high time is more than the low time; a tie, two
zero durations included, is 0. -/
def Obligations.SymbolBitIsTheLongerHalf : Prop :=
  ∀ y : LineSymbol, (symbolBit y = true ↔ (y.dur0 + y.dur1) / 2 < y.dur0) ∧
    (symbolBit y = true ↔ y.dur0 + y.dur1 < 2 * y.dur0) ∧ (symbolBit y = true ↔ y.dur1 < y.dur0) ∧
    (y.dur0 = y.dur1 → symbolBit y = false)

/-- R160, R52: sixteen symbols of polarity (high, low) decode to sixteen bits, the first received as bit 15. -/
def Obligations.DecoderReadsMostSignificantFirst : Prop :=
  ∀ l : List LineSymbol, 16 ≤ l.length → (∀ y ∈ l.take 16, y.level0 = .high ∧ y.level1 = .low) →
    (decodeBits l).2 = 16 ∧ ∀ i (h : i < l.length), i < 16 → (decodeBits l).1.getLsbD (15 - i) = symbolBit l[i]

/-- R160: scanning stops at the first symbol whose polarity is not (high, low): nothing from it on has any effect, and
the count is how many stood before it. -/
def Obligations.DecoderStopsAtWrongPolarity : Prop :=
  ∀ (l rest : List LineSymbol) (y : LineSymbol), l.length ≤ 16 → (∀ x ∈ l, x.level0 = .high ∧ x.level1 = .low) →
    ¬(y.level0 = .high ∧ y.level1 = .low) →
    decodeBits (l ++ y :: rest) = decodeBits l ∧ (decodeBits l).2 = l.length

/-- R160, R163: at most the first 16 received symbols matter, whatever follows them. -/
def Obligations.TrailerIsNotRead : Prop :=
  ∀ (l : List LineSymbol) (scale : Nat), decodeBits l = decodeBits (l.take 16) ∧
    decodeFrame scale l = decodeFrame scale (l.take 16)

/-- R164, R160: fewer than 16 bits are recovered exactly when the list has fewer than 16 symbols or one of its first 16
has another polarity than (high, low), and then the decode fails. -/
def Obligations.ShortFramesFail : Prop :=
  ∀ (l : List LineSymbol) (scale : Nat),
    ((decodeBits l).2 < 16 ↔ l.length < 16 ∨ ∃ y ∈ l.take 16, ¬(y.level0 = .high ∧ y.level1 = .low)) ∧
    ((decodeBits l).2 < 16 → decodeFrame scale l = none)

/-- R175: a decode succeeds exactly when 16 bits were recovered, their last nibble is the complemented fold of the
other three (whatever `CFG_BIDIR` holds), and the throttle field is 48 or more; the value is that field times the
scale modulo 2^32. -/
def Obligations.DecodeSucceedsExactlyOnValidFrames : Prop :=
  ∀ (l : List LineSymbol) (scale : Nat) (v : Word), decodeFrame scale l = some v ↔
    ∃ value : Packet, decodeBits l = (value, 16) ∧
      value.extractLsb' 0 4 = (value.extractLsb' 4 4 ^^^ value.extractLsb' 8 4 ^^^ value.extractLsb' 12 4) ^^^ 0xF#4 ∧
      48 ≤ (value.extractLsb' 5 11).toNat ∧ (value.extractLsb' 5 11).toNat ≤ 2047 ∧
      v = BitVec.ofNat 32 ((value.extractLsb' 5 11).toNat * scale)

/-- R172: a received value whose checksum is in standard polarity never decodes. -/
def Obligations.StandardChecksumNeverDecodes : Prop :=
  ∀ (l : List LineSymbol) (scale : Nat) (value : Packet) (n : Nat), decodeBits l = (value, n) →
    value.extractLsb' 0 4 = checksum (value.extractLsb' 4 12) false →
    verifyPacket value true = false ∧ decodeFrame scale l = none

/-- R173: at every grade from 150 to 1200 and every throttle of the band, the frame of a bidirectional packet, whole or
its first 16 symbols, decodes to that throttle times the scale; a throttle below 48 fails. -/
def Obligations.EncodedTelemetryDecodes : Prop :=
  ∀ (g : GradeCode) (t : TimingProfile) (thr : Throttle) (pb scale : Nat), g ≠ 0 → profile g = some t →
    (48 ≤ thr.toNat →
      decodeFrame scale (encodeFrame pb (assemblePacket thr true) t).toList
          = some (BitVec.ofNat 32 (thr.toNat * scale)) ∧
        decodeFrame scale ((encodeFrame pb (assemblePacket thr true) t).toList.take 16)
          = some (BitVec.ofNat 32 (thr.toNat * scale))) ∧
    (thr.toNat < 48 → decodeFrame scale (encodeFrame pb (assemblePacket thr true) t).toList = none)

/-- R174: a packet that differs from one that verifies in its checksum field alone does not verify; and changing any one
bit of the recovered value of a frame that decodes, in its checksum field or in its data field, makes the decode fail
at the checksum. -/
def Obligations.SingleBitErrorsAreRejected : Prop :=
  (∀ v v' : Packet, verifyPacket v true = true → v'.extractLsb' 4 12 = v.extractLsb' 4 12 → v' ≠ v →
    verifyPacket v' true = false) ∧
  ∀ (l m : List LineSymbol) (scale scale' : Nat) (value : Packet) (k : Nat), k < 16 → decodeBits l = (value, 16) →
    decodeFrame scale l ≠ none → decodeBits m = (value ^^^ BitVec.twoPow 16 k, 16) →
    verifyPacket (value ^^^ BitVec.twoPow 16 k) true = false ∧ decodeFrame scale' m = none

/-- R169: outside bidirectional mode, or without a receive channel, `DECODE` polls nothing and only copies
`LAST_ERPM` to `RES`. -/
def Obligations.DecodeWithoutReceiverDoesNotPoll : Prop :=
  ∀ s : State, (s.cfgBidir = false ∨ s.cfgRxPresent = false) → exec .decode s = .next { s with res := s.lastErpm }

/-- R169, R168, R60: with a receive channel in bidirectional mode `DECODE` polls once. The answer is within the bounds of
R60, recorded and used up; a frame that decodes gives its value to `LAST_ERPM` and `RES`, and any other answer leaves
`LAST_ERPM`, which `RES` then copies. Nothing else changes. The answer is the next the environment gives, where that is
within the bounds; where it gives none it is some answer (notes/assumptions/4.md). -/
def Obligations.DecodePollsOnce : Prop :=
  ∀ s : State, s.cfgBidir = true → s.cfgRxPresent = true → ∃ a, AnswerBounded s.params a ∧
    (∀ b rest, s.rxTape = b :: rest → AnswerBounded s.params b → a = b) ∧
    exec .decode s = .next { s with
      hist := s.hist ++ [.rxPoll a]
      rxTape := s.rxTape.tail
      rxDraws := if s.rxTape = [] then s.rxDraws + 1 else s.rxDraws
      lastErpm := (a.bind (decodeFrame s.params.erpmScale)).getD s.lastErpm
      res := (a.bind (decodeFrame s.params.erpmScale)).getD s.lastErpm }

/-- R168, R32: any answer that fails to decode, for whatever reason, leaves `LAST_ERPM`, the flags and everything else
as they were, but for `RES`, which shows the unchanged `LAST_ERPM`, the answer used up, and its record in the history,
which no host can read. -/
def Obligations.DecodeFailuresLookAlike : Prop :=
  ∀ s : State, s.cfgBidir = true → s.cfgRxPresent = true →
    (nextAnswer s).bind (decodeFrame s.params.erpmScale) = none →
    exec .decode s = .next { s with
      hist := s.hist ++ [.rxPoll (nextAnswer s)]
      rxTape := s.rxTape.tail
      rxDraws := if s.rxTape = [] then s.rxDraws + 1 else s.rxDraws
      res := s.lastErpm }

/-- R170: `READ_ERPM`, the word 0x90000000 exactly, copies `LAST_ERPM` to `RES` and does nothing else:
no poll, and no answer used up. -/
def Obligations.ReadErpmCopiesTelemetry : Prop :=
  (∀ w : Word, decode w = .ok .readErpm ↔ w = 0x90000000) ∧
  ∀ s : State, exec .readErpm s = .next { s with res := s.lastErpm }

/-! ### Transceiver -/

/-- R58, R59, R224, R94: at a frame boundary a frame handed over starts, else the looping one goes on, and the line
carries one complete copy of it, 34 segments in order; with no frame nothing is sent. The looping frame may also be sent
once more while another waits. With nothing pending outside, the run's end included, the transceiver goes on. No register
of the block changes. That the line is kept, and that an OFF frame's copy is 34 segments of no ticks, is the model's
choice (notes/assumptions/10.md and 6.md). -/
def Obligations.FrameBoundaryCarriesOneWholeFrame : Prop :=
  ∀ (s : State) (rest : List Input), modeReserved s.cfgMode = false →
    (s.inputs = .frameBoundary :: rest ∨ (s.inputs = [] ∧ rest = []) →
      (∀ g, s.txfNext = some g → step s = .next { s with
        inputs := rest
        txf := some g
        txfNext := none
        line := s.line ++ g.toList.flatMap fun y => [⟨y.level0, y.dur0⟩, ⟨y.level1, y.dur1⟩] }) ∧
      (∀ h, s.txfNext = none → s.txf = some h → step s = .next { s with
        inputs := rest
        line := s.line ++ h.toList.flatMap fun y => [⟨y.level0, y.dur0⟩, ⟨y.level1, y.dur1⟩] }) ∧
      (s.txfNext = none → s.txf = none → step s = .next { s with inputs := rest })) ∧
    (s.inputs = .frameRepeat :: rest →
      (∀ h, s.txf = some h → step s = .next { s with
        inputs := rest
        line := s.line ++ h.toList.flatMap fun y => [⟨y.level0, y.dur0⟩, ⟨y.level1, y.dur1⟩] }) ∧
      (s.txf = none → step s = .next { s with inputs := rest }))

/-- R226, R58: only `TRANSMIT`, `SEND`, the host's `setThrottle`, the transceiver's own step and a reset change what the
transceiver is to send next, and only the last two change what it is sending. The transceiver's step is one the outside
lists, or what happens when it lists nothing (notes/assumptions/3.md). -/
def Obligations.OnlyHandOverChangesTheTransceiver : Prop :=
  ∀ (s t : State), step s = .next t →
    (t.txfNext ≠ s.txfNext → s.inputs = [] ∨ ∃ i rest, s.inputs = i :: rest ∧
      (i = .frameBoundary ∨ (∃ r, i = .setThrottle r) ∨ (∃ inp, i = .reset inp) ∨
        ∃ w, i = .command w ∧ (decode w = .ok .transmit ∨ ∃ thr, decode w = .ok (.send thr)))) ∧
    (t.txf ≠ s.txf → s.inputs = [] ∨ ∃ i rest, s.inputs = i :: rest ∧ (i = .frameBoundary ∨ ∃ inp, i = .reset inp)) ∧
    (t.line ≠ s.line → s.inputs = [] ∨ ∃ i rest, s.inputs = i :: rest ∧
      (i = .frameBoundary ∨ i = .frameRepeat ∨ ∃ inp, i = .reset inp))

/-! ### Host procedures -/

/-- R181, R182: `setThrottle` clamps the 16-bit request to 48 to 2047; when that is the last throttle no command is
issued and nothing changes, else it is kept and one `SEND` of it is issued. -/
def Obligations.SetThrottleSendsOnChangeOnly : Prop :=
  ∀ (s : State) (r : BitVec 16) (rest : List Input), modeReserved s.cfgMode = false →
    s.inputs = .setThrottle r :: rest → ∃ c : Throttle, c.toNat = max 48 (min r.toNat 2047) ∧
      (c = s.lastThrottle → step s = .next { s with inputs := rest }) ∧
      (c ≠ s.lastThrottle → ∃ t, step s = .next t ∧ exec (.send c) { s with
        inputs := rest
        lastThrottle := c
        hist := s.hist ++ [.command (0x70000000 ||| c.setWidth 32)] } = .next t)

/-- R186: two calls of `setThrottle` with one value load one frame at most: the second changes nothing. -/
def Obligations.SetThrottleIsIdempotent : Prop :=
  ∀ (s : State) (r : BitVec 16) (rest : List Input), modeReserved s.cfgMode = false →
    s.inputs = .setThrottle r :: .setThrottle r :: rest →
    ∃ t, step s = .next t ∧ step t = .next { t with inputs := rest } ∧
      (loadsOf t.hist).length ≤ (loadsOf s.hist).length + 1

/-- R183, R184: `getERPM` issues `DECODE` and returns `RES`; `getMotorRPM` divides that by `max(1, magnetCount / 2)`,
rounding down. -/
def Obligations.TelemetryCallsReturnDecodedValue : Prop :=
  ∀ (s : State) (i : Input) (rest : List Input), modeReserved s.cfgMode = false → s.inputs = i :: rest →
    ∃ t, exec .decode { s with inputs := rest, hist := s.hist ++ [.command 0x80000000] } = .next t ∧
      (i = .getERPM → step s = .next { t with hostResult := t.res }) ∧
      ∀ m, i = .getMotorRPM m →
        ∃ v : Word, step s = .next { t with hostResult := v } ∧ v.toNat = t.res.toNat / max 1 (m.toNat / 2)

/-- R186: under host-only use `PKT` is always the packet of the last throttle sent. -/
def Obligations.HostOnlyUseKeepsThePacketInStep : Prop :=
  ∀ (s t : State), s.HostInStep → (∀ i rest, s.inputs = i :: rest → i.hostOnly = true) → step s = .next t →
    t.HostInStep

/-- R186: under host-only use, after `setThrottle(r)` the throttle field of `PKT` is the clamped request and its
telemetry bit is `CFG_BIDIR`. The call completes. -/
def Obligations.SetThrottleLeavesItsPacket : Prop :=
  ∀ (s : State) (r : BitVec 16) (rest : List Input), modeReserved s.cfgMode = false → s.HostInStep →
    s.inputs = .setThrottle r :: rest → ∃ t, step s = .next t ∧
      (t.pkt.extractLsb' 5 11).toNat = max 48 (min r.toNat 2047) ∧ t.pkt.getLsbD 4 = s.cfgBidir ∧
      t.lastThrottle = t.pkt.extractLsb' 5 11

/-! ### Reset -/

/-- R37, R220: what reset leaves, for every configuration and every contents of the frame buffer, whose durations have
`DUR_W` bits (R26). The configuration and the buffer's contents in `State.reset` itself are the model's choice
(notes/assumptions/1.md and 2.md), and so is that nothing is pending outside (notes/assumptions/3.md). -/
def Obligations.ResetLeavesTheStatedValues : Prop :=
  ∀ (p : Params) (inp : ResetInputs) (s : State), s = State.resetWith p inp →
    s.cfgMode = inp.mode ∧ s.cfgBidir = inp.bidir ∧ s.cfgRxPresent = inp.rxPresent ∧ s.lastErpm = 0 ∧ s.res = 0 ∧
    s.pkt = 0x0000 ∧ s.frame.fits p.durW = true ∧ (inp.frame.fits p.durW = true → s.frame = inp.frame) ∧
    s.frameValid = false ∧ s.txLoaded = false ∧ s.errIllegal = false ∧
    s.txf = none ∧ s.txfNext = none ∧ s.faults = [] ∧ s.precondOff = false ∧ s.hist = [] ∧ s.lastThrottle = 0 ∧
    State.reset = State.resetWith Config.params ResetInputs.named

/-- R220, R207: a reset of a running instance leaves a fresh one, whatever its state was; only what the outside will
still do, the receive channel and the parameters stay. That a reset of a running instance is an input, and what it
forgets, is the model's reading (notes/assumptions/9.md). -/
def Obligations.ResetReplacesTheInstance : Prop :=
  ∀ (s : State) (inp : ResetInputs) (rest : List Input), modeReserved s.cfgMode = false →
    modeReserved inp.mode = false → s.inputs = .reset inp :: rest →
    step s = .next { State.resetWith s.params inp with
      inputs := rest
      rxTape := s.rxTape
      rxDraws := s.rxDraws
      rxChannel := s.rxChannel }

/-- Every invariant below holds after a reset with any parameters, any buffer contents and a legal configuration: every
record of parameters is within the ranges of R8. The last two clauses, that `State.reset` is such a reset, are about the
model's choices (notes/assumptions/1.md, 2.md and 7.md). -/
def Obligations.ResetMeetsTheInvariants : Prop :=
  (∀ (p : Params) (inp : ResetInputs), modeReserved inp.mode = false →
    (State.resetWith p inp).ConfigLegal ∧ (State.resetWith p inp).DurationsFit ∧
    (State.resetWith p inp).FramesEncoded ∧ (State.resetWith p inp).TransmitterSound ∧
    (State.resetWith p inp).LineWhole ∧ (State.resetWith p inp).FaultsSound ∧
    (State.resetWith p inp).TelemetrySound ∧ (State.resetWith p inp).PacketSound ∧
    (State.resetWith p inp).OffMarkSound ∧ (State.resetWith p inp).HostSound ∧ (State.resetWith p inp).HostInStep ∧
    (State.resetWith p inp).Clean) ∧
  (∀ p : Params, p.Legal) ∧
  modeReserved ResetInputs.named.mode = false ∧ ResetInputs.named.frame.fits Config.params.durW = true

/-! ### What every step keeps -/

/-- R20 to R22, R8, R211: no step but a reset changes the configuration, and none at all changes the parameters or the
receive channel. -/
def Obligations.ConfigurationIsImmutable : Prop :=
  ∀ (s t : State), step s = .next t → t.params = s.params ∧ t.rxChannel = s.rxChannel ∧
    (s.ConfigLegal → t.ConfigLegal) ∧
    ((∀ i rest, s.inputs = i :: rest → i.isReset = false) →
      t.cfgMode = s.cfgMode ∧ t.cfgBidir = s.cfgBidir ∧ t.cfgRxPresent = s.cfgRxPresent)

/-- R221: nothing but a reset clears `ERR_ILLEGAL`, `FRAME_VALID`, `TX_LOADED` or the model's marks, takes back an event
of the history, or changes `LAST_ERPM` other than by a polled answer that decodes. -/
def Obligations.OnlyResetClears : Prop :=
  ∀ (s t : State), step s = .next t → (∀ i rest, s.inputs = i :: rest → i.isReset = false) →
    (s.errIllegal = true → t.errIllegal = true) ∧ (s.frameValid = true → t.frameValid = true) ∧
    (s.txLoaded = true → t.txLoaded = true) ∧ (s.precondOff = true → t.precondOff = true) ∧
    (∀ r ∈ s.faults, r ∈ t.faults) ∧ (∃ es, t.hist = s.hist ++ es) ∧
    (t.lastErpm = s.lastErpm ∨ s.cfgBidir = true ∧ s.cfgRxPresent = true ∧
      ∃ l, t.hist.getLast? = some (.rxPoll (some l)) ∧ decodeFrame s.params.erpmScale l = some t.lastErpm)

/-- R60, R90: what a step appends to the history: nothing, or one command and then at most one hand-over or poll; a
poll only in bidirectional mode with a receive channel. -/
def Obligations.StepsRecordOneCommandAtMost : Prop :=
  ∀ (s t : State), step s = .next t → (∀ i rest, s.inputs = i :: rest → i.isReset = false) →
    t.hist = s.hist ∨ ∃ w, t.hist = s.hist ++ [.command w] ∨
      (∃ f, t.hist = s.hist ++ [.command w, .txLoad f] ∧ t.txfNext = some f ∧ t.frame = f) ∨
      ∃ a, t.hist = s.hist ++ [.command w, .rxPoll a] ∧ s.cfgBidir = true ∧ s.cfgRxPresent = true

/-- R26, R27, R58, R147: every step keeps it that `FRAME_VALID` speaks the truth, that only encoded frames are handed
over, that the frame handed over last is the one waiting or looping, and that the line carries whole frames only, each
of them one that was handed over. That the line is kept since reset, and that it carries an OFF frame like any other, is
the model's choice (notes/assumptions/10.md and 6.md). -/
def Obligations.StepKeepsTheTransmitPathSound : Prop :=
  ∀ (s t : State), s.FramesEncoded → s.TransmitterSound → s.LineWhole → step s = .next t →
    t.FramesEncoded ∧ t.TransmitterSound ∧ t.LineWhole

/-- R30, R35, R201: every step keeps it that `ERR_ILLEGAL` and `FAULT` agree, and that `FAULT` records only commands
that were taken, each with the cause its word has. That `FAULT`, a set in the spec, is a list in rising order of a key is
the model's choice (notes/assumptions/14.md). -/
def Obligations.StepKeepsTheFaultRecordSound : Prop :=
  ∀ (s t : State), s.FaultsSound → step s = .next t → t.FaultsSound

/-- R8, R13, R14, R26, R60: whatever the environment answers and whatever buffers it resets to, every step keeps every
duration held or sent within `DUR_W` bits and every recorded answer within its bounds. -/
def Obligations.StepKeepsDurationsInWidth : Prop :=
  ∀ (s t : State), s.DurationsFit → step s = .next t → t.DurationsFit

/-- R25, R28, R35, R36: every step keeps `LAST_ERPM` a telemetry value, `PKT` an assembled packet (or their reset
values), `PRECOND_OFF` set exactly when a frame was encoded on an OFF instance, and the host's throttle in the
clamp. -/
def Obligations.StepKeepsTheRegistersMeaningful : Prop :=
  ∀ (s t : State), s.TelemetrySound → s.PacketSound → s.OffMarkSound → s.HostSound → step s = .next t →
    t.TelemetrySound ∧ t.PacketSound ∧ t.OffMarkSound ∧ t.HostSound

/-- R35: no step reads `FAULT`, `PRECOND_OFF` or `HIST`: whatever they hold, every step does the same to everything
else. -/
def Obligations.ModelMarksAreNeverRead : Prop :=
  ∀ (s : State) (fl : List FaultRecord) (off : Bool) (h : List Event),
    (∀ t, step s = .next t → ∃ fl' off' h',
      step { s with faults := fl, precondOff := off, hist := h } =
        .next { t with faults := fl', precondOff := off', hist := h' }) ∧
    ∀ r, step s = .refused r → step { s with faults := fl, precondOff := off, hist := h } = .refused r

/-- R37: while `FRAME_VALID` is 0 the contents of `FRAME` are never observed: with any other contents every step does
the same, and leaves the other contents in place or has overwritten them. -/
def Obligations.UnwrittenFrameIsNeverRead : Prop :=
  ∀ (s t : State) (f : Frame), s.frameValid = false → step s = .next t →
    step { s with frame := f } = .next t ∨
      (t.frameValid = false ∧ step { s with frame := f } = .next { t with frame := f })

/-! ### Instances, bus and assembler -/

/-- R211: a step of one instance changes no other, and takes its receive polls on its own channel, the number of its
place (notes/assumptions/21.md). -/
def Obligations.InstancesAreIndependent : Prop :=
  ∀ (fleet fleet' : List State) (k : Nat), stepInstance k fleet = .next fleet' →
    fleet'.length = fleet.length ∧ (∀ j, j ≠ k → fleet'[j]? = fleet[j]?) ∧
    ∀ s t, fleet[k]? = some s → fleet'[k]? = some t → step (s.onChannel k) = .next t ∧ t.rxChannel = k

/-- R51, R54: whatever the bus's byte order, the four bytes of a word assemble to it again. What the two orders are is
the model's choice (notes/assumptions/16.md): in little order the least significant byte stands at offset 0 and each
later offset holds the next higher one; in big order the most significant byte stands at offset 0, and so on down. -/
def Obligations.BusBytesAssembleToTheWord : Prop :=
  (∀ (e : Endian) (w : Word), busWord e (busByte e w 0) (busByte e w 1) (busByte e w 2) (busByte e w 3) = w) ∧
  (∀ (w : Word) (k j : Nat), k < 4 → j < 8 → (busByte .little w k).getLsbD j = w.getLsbD (8 * k + j) ∧
    (busByte .big w k).getLsbD j = w.getLsbD (24 - 8 * k + j)) ∧
  (∀ b0 b1 b2 b3 : Byte, (busWord .little b0 b1 b2 b3).extractLsb' 0 8 = b0 ∧
    (busWord .big b0 b1 b2 b3).extractLsb' 24 8 = b0)

/-- R85, R86: for each form with operands the assembler writes a word exactly when every operand fits its field, and that
word decodes to the command with those operand values; a line whose operand does not fit is refused, never truncated.
The forms without operands have their words. A pseudo-command is its expansion, `LOAD` the three commands, and the grade
names stand for 0 to 4. How a line's text is read is not part of this (notes/assumptions/15.md). -/
def Obligations.AssemblerNeverTruncates : Prop :=
  (∀ d p : Nat, (d < 4096 → p < 2 → ∃ (w : Word) (d' : Data12) (p' : Bool), assembleLine (.csum d p) = some w ∧
      decode w = .ok (.csum d' p') ∧ d'.toNat = d ∧ p'.toNat = p) ∧
    (4096 ≤ d ∨ 2 ≤ p → assembleLine (.csum d p) = none)) ∧
  (∀ k p : Nat, (k < 65536 → p < 2 → ∃ (w : Word) (k' : Packet) (p' : Bool), assembleLine (.verify k p) = some w ∧
      decode w = .ok (.verify k' p') ∧ k'.toNat = k ∧ p'.toNat = p) ∧
    (65536 ≤ k ∨ 2 ≤ p → assembleLine (.verify k p) = none)) ∧
  (∀ t : Nat, (t < 2048 → ∃ (w : Word) (t' : Throttle), assembleLine (.assemble t) = some w ∧
      decode w = .ok (.assemble t') ∧ t'.toNat = t) ∧ (2048 ≤ t → assembleLine (.assemble t) = none)) ∧
  (∀ g : Nat, (g < 8 → ∃ (w : Word) (g' : GradeCode), assembleLine (.lut g) = some w ∧
      decode w = .ok (.lut g') ∧ g'.toNat = g) ∧ (8 ≤ g → assembleLine (.lut g) = none)) ∧
  (∀ k : Nat, (k < 65536 → ∃ (w : Word) (k' : Packet), assembleLine (.encode k) = some w ∧
      decode w = .ok (.encode k') ∧ k'.toNat = k) ∧ (65536 ≤ k → assembleLine (.encode k) = none)) ∧
  (∀ t : Nat, (t < 2048 → ∃ (w : Word) (t' : Throttle), assembleLine (.send t) = some w ∧
      decode w = .ok (.send t') ∧ t'.toNat = t) ∧ (2048 ≤ t → assembleLine (.send t) = none)) ∧
  (assembleLine .nop = some 0x00000000 ∧ assembleLine .transmit = some 0x60000000 ∧
    assembleLine .decode = some 0x80000000 ∧ assembleLine .readErpm = some 0x90000000 ∧
    assembleLine .readStatus = some 0xA0000000) ∧
  (∀ n : Nat, assembleLine (.csumStd n) = assembleLine (.csum n 0) ∧
    assembleLine (.csumInv n) = assembleLine (.csum n 1) ∧
    assembleLine (.verifyStd n) = assembleLine (.verify n 0) ∧
    assembleLine (.verifyInv n) = assembleLine (.verify n 1)) ∧
  (assembleLine (.lutNamed .off) = some 0x40000000 ∧ assembleLine (.lutNamed .g150) = some 0x40000001 ∧
    assembleLine (.lutNamed .g300) = some 0x40000002 ∧ assembleLine (.lutNamed .g600) = some 0x40000003 ∧
    assembleLine (.lutNamed .g1200) = some 0x40000004) ∧
  ∀ (t : Nat) (s : State), (t < 2048 → ∃ t' : Throttle, t'.toNat = t ∧ runLine (.load t) s = some (loadSequence t' s)) ∧
    (2048 ≤ t → runLine (.load t) s = none)
end

