-- ==== Sys2Proof/Laws/Decoder.lean ====
section
/-! SUPPORT. Decoder.lean: what the decoder's loop does, said once: it takes in good symbols one bit each, most
significant first, and stops at sixteen or at the first other symbol. -/

namespace Sys2Proof.Machine

/-- The value after a run of symbols is shifted in, one bit each (R160). -/
def shiftIn (l : List LineSymbol) (v : Packet) : Packet :=
  l.foldl (fun v y => (v <<< 1) ||| (BitVec.ofBool (symbolBit y)).setWidth 16) v

/-- At sixteen bits the loop ends (R160). -/
theorem scanBits_full (l : List LineSymbol) (v : Packet) (c : Nat) (h : 16 ≤ c) : scanBits l v c = (v, c) := by
  cases l with
  | nil => rfl
  | cons y ys => simp [scanBits, Config.maxBits, Nat.not_lt.mpr h]

/-- A symbol whose polarity is not (high, low) ends the loop (R160). -/
theorem scanBits_bad (y : LineSymbol) (ys : List LineSymbol) (v : Packet) (c : Nat) (h : highThenLow y = false) :
    scanBits (y :: ys) v c = (v, c) := by
  simp [scanBits, h]

/-- A run of good symbols is taken in, while it fits (R160). -/
theorem scanBits_append (l rest : List LineSymbol) (v : Packet) (c : Nat) (hg : ∀ y ∈ l, highThenLow y = true)
    (hc : c + l.length ≤ 16) : scanBits (l ++ rest) v c = scanBits rest (shiftIn l v) (c + l.length) := by
  induction l generalizing v c with
  | nil => simp [shiftIn]
  | cons y ys ih =>
    simp only [List.length_cons] at hc
    have hlt : c < Config.maxBits := by simp only [Config.maxBits]; omega
    rw [List.cons_append, scanBits, hg y (by simp)]
    simp only [hlt, decide_true, Bool.and_self, if_true]
    rw [ih _ _ (fun x hx => hg x (by simp [hx])) (by omega)]
    simp only [shiftIn, List.foldl_cons, List.length_cons]
    congr 1
    omega

/-- Only as many symbols as there is room for are read (R160, R163). -/
theorem scanBits_take (l : List LineSymbol) (v : Packet) (c : Nat) (hc : c ≤ 16) :
    scanBits l v c = scanBits (l.take (16 - c)) v c := by
  induction l generalizing v c with
  | nil => simp
  | cons y ys ih =>
    by_cases h : c = 16
    · subst h; simp [scanBits_full]
    · have hlt : c < Config.maxBits := by simp only [Config.maxBits]; omega
      obtain ⟨k, hk⟩ : ∃ k, 16 - c = k + 1 := ⟨15 - c, by omega⟩
      rw [hk, List.take_succ_cons, scanBits, scanBits, ih _ _ (by omega)]
      have : 16 - (c + 1) = k := by omega
      rw [this]

/-- The bits of a value after a run is shifted in: the run's last symbol in bit 0, the older bits above (R160). -/
theorem getLsbD_shiftIn (l : List LineSymbol) (v : Packet) (j : Nat) (hj : j < 16) :
    (shiftIn l v).getLsbD j =
      if h : j < l.length then symbolBit (l[l.length - 1 - j]'(by omega)) else v.getLsbD (j - l.length) := by
  induction l generalizing v with
  | nil => simp [shiftIn]
  | cons y ys ih =>
    rw [shiftIn, List.foldl_cons, ← shiftIn, ih]
    simp only [List.length_cons]
    by_cases h : j < ys.length
    · rw [dif_pos h, dif_pos (by omega)]
      obtain ⟨k, hk⟩ : ∃ k, ys.length + 1 - 1 - j = k + 1 := ⟨ys.length - 1 - j, by omega⟩
      have hk' : ys.length - 1 - j = k := by omega
      simp only [hk, hk', List.getElem_cons_succ]
    · rw [dif_neg h, BitVec.getLsbD_or, BitVec.getLsbD_shiftLeft, BitVec.getLsbD_setWidth, BitVec.getLsbD_ofBool]
      by_cases h2 : j = ys.length
      · subst h2
        simp
      · rw [dif_neg (by omega)]
        have h3 : j - ys.length ≠ 0 := by omega
        have h4 : j - (ys.length + 1) = j - ys.length - 1 := by omega
        have h5 : ¬ j - ys.length < 1 := by omega
        have h6 : j - ys.length < 16 := by omega
        simp [h3, h4, h5, h6]

end Sys2Proof.Machine
end

