-- ==== Sys2Proof/Laws/Encoding.lean ====
section
/-! SUPPORT. Encoding.lean: the bits of a placed field, and what the decoder answers, said once: a row that selects a
word gives the command, no two rows select one word, and no row means a rejection. -/

namespace Sys2Proof

open Sys2Proof.Machine

/-- The bits of a field at its place. -/
theorem Machine.getLsbD_place {n : Nat} (v : BitVec n) (lo i : Nat) :
    (place v lo).getLsbD i = (decide (lo ≤ i) && decide (i < 32) && v.getLsbD (i - lo)) := by
  unfold place
  rw [BitVec.getLsbD_shiftLeft, BitVec.getLsbD_setWidth]
  by_cases h : lo ≤ i
  · by_cases h2 : i < 32 <;> simp [h, h2, Nat.not_lt.mpr]
    omega
  · simp [h, Nat.lt_of_not_le h]

/-- Every row's mask covers the opcode field (R78). -/
theorem opRow_mask_covers (r : OpRow) (hr : r ∈ opRows) : opField r.mask = 0xF#4 := by
  simp only [opRows, List.mem_cons, List.not_mem_nil, or_false] at hr
  rcases hr with h | h | h | h | h | h | h | h | h | h | h <;> subst h <;> decide

/-- A selected word has the row's opcode (R78). -/
theorem opField_of_selects (r : OpRow) (hr : r ∈ opRows) (w : Word) (h : r.selects w = true) :
    opField w = opField r.matchBits := by
  have hm := opRow_mask_covers r hr
  have he : w &&& r.mask = r.matchBits := by simpa [OpRow.selects] using h
  rw [← he]
  unfold opField at hm ⊢
  rw [BitVec.extractLsb'_and, hm]
  exact BitVec.and_allOnes.symm

/-- Two rows of one opcode are one row (R78): the map's opcodes are 0x0 to 0xA, in order. -/
theorem opRows_opcode (k : Nat) (hk : k < 11) : opField (opRows[k]'hk).matchBits = BitVec.ofNat 4 k :=
  (by decide : ∀ k : Fin 11, opField (opRows[k.val]'k.isLt).matchBits = BitVec.ofNat 4 k.val) ⟨k, hk⟩

/-- The row that selects a word gives its command: no earlier row selects it too (R78, R84). -/
theorem decode_of_row (k : Nat) (hk : k < 11) (w : Word) (h : (opRows[k]'hk).selects w = true) :
    decode w = .ok ((opRows[k]'hk).build w) := by
  have hop : opField w = BitVec.ofNat 4 k :=
    (opField_of_selects _ (List.getElem_mem hk) w h).trans (opRows_opcode k hk)
  have hno : ∀ j (hj : j < 11), j ≠ k → (opRows[j]'hj).selects w = false := by
    intro j hj hne
    by_contra hs
    have := (opField_of_selects _ (List.getElem_mem hj) w (by simpa using hs)).trans (opRows_opcode j hj)
    rw [hop] at this
    have := congrArg BitVec.toNat this
    simp only [BitVec.toNat_ofNat] at this
    omega
  unfold decode
  have e0 := hno 0; have e1 := hno 1; have e2 := hno 2; have e3 := hno 3; have e4 := hno 4; have e5 := hno 5
  have e6 := hno 6; have e7 := hno 7; have e8 := hno 8; have e9 := hno 9; have e10 := hno 10
  simp only [opRows, List.getElem_cons_zero, List.getElem_cons_succ] at h e0 e1 e2 e3 e4 e5 e6 e7 e8 e9 e10 ⊢
  interval_cases k <;> simp_all [decodeRows]

/-- A word that decodes is selected by a row of the map, and is that row's command (R84). -/
theorem row_of_decode (w : Word) (i : Instr) (h : decode w = .ok i) :
    ∃ k, ∃ hk : k < 11, (opRows[k]'hk).selects w = true ∧ i = (opRows[k]'hk).build w := by
  have key : ∀ (rs : List OpRow) (i : Instr), decodeRows rs w = some i →
      ∃ k, ∃ hk : k < rs.length, (rs[k]'hk).selects w = true ∧ i = (rs[k]'hk).build w := by
    intro rs
    induction rs with
    | nil => intro i h; cases h
    | cons r rs ih =>
      intro i h
      unfold decodeRows at h
      split at h
      case isTrue hs => cases h; exact ⟨0, by simp, hs, rfl⟩
      case isFalse hs =>
        obtain ⟨k, hk, h1, h2⟩ := ih i h
        exact ⟨k + 1, by simpa using hk, h1, h2⟩
  unfold decode at h
  split at h
  case h_1 j hj => cases h; exact key opRows _ hj
  case h_2 => cases h

/-- A word that no row selects is rejected with the cause of R201, and only such a word is. -/
theorem decode_error_iff (w : Word) (c : IllegalCause) :
    decode w = .error c ↔ (∀ r ∈ opRows, r.selects w = false) ∧ c = illegalCause w := by
  have key : ∀ rs : List OpRow, decodeRows rs w = none ↔ ∀ r ∈ rs, r.selects w = false := by
    intro rs
    induction rs with
    | nil => simp [decodeRows]
    | cons r rs ih =>
      unfold decodeRows
      cases hs : r.selects w <;> simp [hs, ih]
  rw [← key]
  unfold decode
  cases decodeRows opRows w with
  | none => simp [eq_comm]
  | some i => simp

end Sys2Proof
end

