-- ==== Sys2Proof/Laws/Frames.lean ====
section
/-! SUPPORT. Frames.lean: the checksum as a fold of nibbles, the fields of an assembled packet, and the entries of an
encoded frame, so that no proof unfolds them again. -/

namespace Sys2Proof.Machine

/-- The checksum as the exclusive-or of the three nibbles, with all bits changed when inverted (R121). -/
theorem checksum_eq_fold (d : Data12) (inv : Bool) : checksum d inv =
    (d.extractLsb' 0 4 ^^^ d.extractLsb' 4 4 ^^^ d.extractLsb' 8 4) ^^^ (if inv then 0xF#4 else 0x0#4) := by
  apply BitVec.eq_of_getLsbD_eq
  intro i hi
  cases inv <;> simp only [checksum, Bool.false_eq_true, if_false, if_true] <;> interval_cases i <;> simp

/-- The data bits of an assembled packet (R124). -/
theorem dataOf_assemblePacket (thr : Throttle) (b : Bool) : dataOf (assemblePacket thr b) = data12 thr b := by
  apply BitVec.eq_of_getLsbD_eq
  intro i hi
  simp only [dataOf, assemblePacket, BitVec.getLsbD_extractLsb', BitVec.getLsbD_or, BitVec.getLsbD_shiftLeft,
    BitVec.getLsbD_setWidth]
  interval_cases i <;> simp

/-- The checksum field of an assembled packet (R124). -/
theorem checksumOf_assemblePacket (thr : Throttle) (b : Bool) :
    checksumOf (assemblePacket thr b) = checksum (data12 thr b) b := by
  apply BitVec.eq_of_getLsbD_eq
  intro i hi
  simp only [checksumOf, assemblePacket, BitVec.getLsbD_extractLsb', BitVec.getLsbD_or, BitVec.getLsbD_shiftLeft,
    BitVec.getLsbD_setWidth]
  interval_cases i <;> simp

/-- Entry `i` below 16 of an encoded frame carries packet bit `15 − i` (R140). -/
theorem encodeFrame_getElem (pb : Nat) (p : Packet) (t : TimingProfile) (i : Nat) (h : i < 16) :
    (encodeFrame pb p t)[i] = dataSymbol t (p.getLsbD (15 - i)) := by
  simp [encodeFrame, Vector.getElem_ofFn, h]

/-- Entry 16 of an encoded frame is the pause (R140). -/
theorem encodeFrame_getElem_pause (pb : Nat) (p : Packet) (t : TimingProfile) :
    (encodeFrame pb p t)[16] = pauseSymbol pb t := by
  simp [encodeFrame, Vector.getElem_ofFn]

/-- An encoded frame as a list: sixteen data symbols, most significant bit first, then the pause (R52). -/
theorem encodeFrame_toList (pb : Nat) (p : Packet) (t : TimingProfile) : (encodeFrame pb p t).toList =
    (List.range 16).map (fun i => dataSymbol t (p.getLsbD (15 - i))) ++ [pauseSymbol pb t] := by
  apply List.ext_getElem
  · simp
  · intro i h1 h2
    simp only [Vector.length_toList] at h1
    rw [Vector.getElem_toList]
    by_cases h : i < 16
    · rw [encodeFrame_getElem _ _ _ _ h, List.getElem_append_left (by simpa using h)]
      simp
    · have : i = 16 := by omega
      subst this
      rw [encodeFrame_getElem_pause]
      simp

/-- A data symbol lasts one bit period (R101). -/
theorem dataSymbol_ticks (t : TimingProfile) (b : Bool) (h0 : t.hi0 ≤ t.tpb) (h1 : t.hi1 ≤ t.tpb) :
    (dataSymbol t b).dur0 + (dataSymbol t b).dur1 = t.tpb := by
  cases b <;> simp [dataSymbol] <;> omega

/-- The symbol count is 17 (R144, R145). -/
theorem frameCount_eq : frameCount = 17 := by decide

end Sys2Proof.Machine
end

