-- ==== Sys2Proof/Laws/State.lean ====
section
/-! SUPPORT. State.lean: one lemma per field per update of the state, so that no proof unfolds a record update. -/

namespace Sys2Proof.Machine

section setRes_fields

variable (s : State) (v : Word)

@[simp] theorem State.setRes_params : (s.setRes v).params = s.params := rfl
@[simp] theorem State.setRes_cfgMode : (s.setRes v).cfgMode = s.cfgMode := rfl
@[simp] theorem State.setRes_cfgBidir : (s.setRes v).cfgBidir = s.cfgBidir := rfl
@[simp] theorem State.setRes_cfgRxPresent : (s.setRes v).cfgRxPresent = s.cfgRxPresent := rfl
@[simp] theorem State.setRes_res : (s.setRes v).res = v := rfl
@[simp] theorem State.setRes_pkt : (s.setRes v).pkt = s.pkt := rfl
@[simp] theorem State.setRes_frame : (s.setRes v).frame = s.frame := rfl
@[simp] theorem State.setRes_frameValid : (s.setRes v).frameValid = s.frameValid := rfl
@[simp] theorem State.setRes_txLoaded : (s.setRes v).txLoaded = s.txLoaded := rfl
@[simp] theorem State.setRes_lastErpm : (s.setRes v).lastErpm = s.lastErpm := rfl
@[simp] theorem State.setRes_errIllegal : (s.setRes v).errIllegal = s.errIllegal := rfl
@[simp] theorem State.setRes_txf : (s.setRes v).txf = s.txf := rfl
@[simp] theorem State.setRes_txfNext : (s.setRes v).txfNext = s.txfNext := rfl
@[simp] theorem State.setRes_line : (s.setRes v).line = s.line := rfl
@[simp] theorem State.setRes_faults : (s.setRes v).faults = s.faults := rfl
@[simp] theorem State.setRes_precondOff : (s.setRes v).precondOff = s.precondOff := rfl
@[simp] theorem State.setRes_hist : (s.setRes v).hist = s.hist := rfl
@[simp] theorem State.setRes_lastThrottle : (s.setRes v).lastThrottle = s.lastThrottle := rfl
@[simp] theorem State.setRes_hostResult : (s.setRes v).hostResult = s.hostResult := rfl
@[simp] theorem State.setRes_inputs : (s.setRes v).inputs = s.inputs := rfl
@[simp] theorem State.setRes_rxTape : (s.setRes v).rxTape = s.rxTape := rfl
@[simp] theorem State.setRes_rxDraws : (s.setRes v).rxDraws = s.rxDraws := rfl
@[simp] theorem State.setRes_rxChannel : (s.setRes v).rxChannel = s.rxChannel := rfl

end setRes_fields

section onChannel_fields

variable (s : State) (c : Nat)

@[simp] theorem State.onChannel_params : (s.onChannel c).params = s.params := rfl
@[simp] theorem State.onChannel_cfgMode : (s.onChannel c).cfgMode = s.cfgMode := rfl
@[simp] theorem State.onChannel_cfgBidir : (s.onChannel c).cfgBidir = s.cfgBidir := rfl
@[simp] theorem State.onChannel_cfgRxPresent : (s.onChannel c).cfgRxPresent = s.cfgRxPresent := rfl
@[simp] theorem State.onChannel_res : (s.onChannel c).res = s.res := rfl
@[simp] theorem State.onChannel_pkt : (s.onChannel c).pkt = s.pkt := rfl
@[simp] theorem State.onChannel_frame : (s.onChannel c).frame = s.frame := rfl
@[simp] theorem State.onChannel_frameValid : (s.onChannel c).frameValid = s.frameValid := rfl
@[simp] theorem State.onChannel_txLoaded : (s.onChannel c).txLoaded = s.txLoaded := rfl
@[simp] theorem State.onChannel_lastErpm : (s.onChannel c).lastErpm = s.lastErpm := rfl
@[simp] theorem State.onChannel_errIllegal : (s.onChannel c).errIllegal = s.errIllegal := rfl
@[simp] theorem State.onChannel_txf : (s.onChannel c).txf = s.txf := rfl
@[simp] theorem State.onChannel_txfNext : (s.onChannel c).txfNext = s.txfNext := rfl
@[simp] theorem State.onChannel_line : (s.onChannel c).line = s.line := rfl
@[simp] theorem State.onChannel_faults : (s.onChannel c).faults = s.faults := rfl
@[simp] theorem State.onChannel_precondOff : (s.onChannel c).precondOff = s.precondOff := rfl
@[simp] theorem State.onChannel_hist : (s.onChannel c).hist = s.hist := rfl
@[simp] theorem State.onChannel_lastThrottle : (s.onChannel c).lastThrottle = s.lastThrottle := rfl
@[simp] theorem State.onChannel_hostResult : (s.onChannel c).hostResult = s.hostResult := rfl
@[simp] theorem State.onChannel_inputs : (s.onChannel c).inputs = s.inputs := rfl
@[simp] theorem State.onChannel_rxTape : (s.onChannel c).rxTape = s.rxTape := rfl
@[simp] theorem State.onChannel_rxDraws : (s.onChannel c).rxDraws = s.rxDraws := rfl
@[simp] theorem State.onChannel_rxChannel : (s.onChannel c).rxChannel = c := rfl

end onChannel_fields

section setPkt_fields

variable (s : State) (p : Packet)

@[simp] theorem State.setPkt_params : (s.setPkt p).params = s.params := rfl
@[simp] theorem State.setPkt_cfgMode : (s.setPkt p).cfgMode = s.cfgMode := rfl
@[simp] theorem State.setPkt_cfgBidir : (s.setPkt p).cfgBidir = s.cfgBidir := rfl
@[simp] theorem State.setPkt_cfgRxPresent : (s.setPkt p).cfgRxPresent = s.cfgRxPresent := rfl
@[simp] theorem State.setPkt_res : (s.setPkt p).res = s.res := rfl
@[simp] theorem State.setPkt_pkt : (s.setPkt p).pkt = p := rfl
@[simp] theorem State.setPkt_frame : (s.setPkt p).frame = s.frame := rfl
@[simp] theorem State.setPkt_frameValid : (s.setPkt p).frameValid = s.frameValid := rfl
@[simp] theorem State.setPkt_txLoaded : (s.setPkt p).txLoaded = s.txLoaded := rfl
@[simp] theorem State.setPkt_lastErpm : (s.setPkt p).lastErpm = s.lastErpm := rfl
@[simp] theorem State.setPkt_errIllegal : (s.setPkt p).errIllegal = s.errIllegal := rfl
@[simp] theorem State.setPkt_txf : (s.setPkt p).txf = s.txf := rfl
@[simp] theorem State.setPkt_txfNext : (s.setPkt p).txfNext = s.txfNext := rfl
@[simp] theorem State.setPkt_line : (s.setPkt p).line = s.line := rfl
@[simp] theorem State.setPkt_faults : (s.setPkt p).faults = s.faults := rfl
@[simp] theorem State.setPkt_precondOff : (s.setPkt p).precondOff = s.precondOff := rfl
@[simp] theorem State.setPkt_hist : (s.setPkt p).hist = s.hist := rfl
@[simp] theorem State.setPkt_lastThrottle : (s.setPkt p).lastThrottle = s.lastThrottle := rfl
@[simp] theorem State.setPkt_hostResult : (s.setPkt p).hostResult = s.hostResult := rfl
@[simp] theorem State.setPkt_inputs : (s.setPkt p).inputs = s.inputs := rfl
@[simp] theorem State.setPkt_rxTape : (s.setPkt p).rxTape = s.rxTape := rfl
@[simp] theorem State.setPkt_rxDraws : (s.setPkt p).rxDraws = s.rxDraws := rfl
@[simp] theorem State.setPkt_rxChannel : (s.setPkt p).rxChannel = s.rxChannel := rfl

end setPkt_fields

section storeFrame_fields

variable (s : State) (f : Frame)

@[simp] theorem State.storeFrame_params : (s.storeFrame f).params = s.params := rfl
@[simp] theorem State.storeFrame_cfgMode : (s.storeFrame f).cfgMode = s.cfgMode := rfl
@[simp] theorem State.storeFrame_cfgBidir : (s.storeFrame f).cfgBidir = s.cfgBidir := rfl
@[simp] theorem State.storeFrame_cfgRxPresent : (s.storeFrame f).cfgRxPresent = s.cfgRxPresent := rfl
@[simp] theorem State.storeFrame_res : (s.storeFrame f).res = s.res := rfl
@[simp] theorem State.storeFrame_pkt : (s.storeFrame f).pkt = s.pkt := rfl
@[simp] theorem State.storeFrame_frame : (s.storeFrame f).frame = f := rfl
@[simp] theorem State.storeFrame_frameValid : (s.storeFrame f).frameValid = true := rfl
@[simp] theorem State.storeFrame_txLoaded : (s.storeFrame f).txLoaded = s.txLoaded := rfl
@[simp] theorem State.storeFrame_lastErpm : (s.storeFrame f).lastErpm = s.lastErpm := rfl
@[simp] theorem State.storeFrame_errIllegal : (s.storeFrame f).errIllegal = s.errIllegal := rfl
@[simp] theorem State.storeFrame_txf : (s.storeFrame f).txf = s.txf := rfl
@[simp] theorem State.storeFrame_txfNext : (s.storeFrame f).txfNext = s.txfNext := rfl
@[simp] theorem State.storeFrame_line : (s.storeFrame f).line = s.line := rfl
@[simp] theorem State.storeFrame_faults : (s.storeFrame f).faults = s.faults := rfl
@[simp] theorem State.storeFrame_precondOff : (s.storeFrame f).precondOff = s.precondOff := rfl
@[simp] theorem State.storeFrame_hist : (s.storeFrame f).hist = s.hist := rfl
@[simp] theorem State.storeFrame_lastThrottle : (s.storeFrame f).lastThrottle = s.lastThrottle := rfl
@[simp] theorem State.storeFrame_hostResult : (s.storeFrame f).hostResult = s.hostResult := rfl
@[simp] theorem State.storeFrame_inputs : (s.storeFrame f).inputs = s.inputs := rfl
@[simp] theorem State.storeFrame_rxTape : (s.storeFrame f).rxTape = s.rxTape := rfl
@[simp] theorem State.storeFrame_rxDraws : (s.storeFrame f).rxDraws = s.rxDraws := rfl
@[simp] theorem State.storeFrame_rxChannel : (s.storeFrame f).rxChannel = s.rxChannel := rfl

end storeFrame_fields

section setTxLoaded_fields

variable (s : State)

@[simp] theorem State.setTxLoaded_params : s.setTxLoaded.params = s.params := rfl
@[simp] theorem State.setTxLoaded_cfgMode : s.setTxLoaded.cfgMode = s.cfgMode := rfl
@[simp] theorem State.setTxLoaded_cfgBidir : s.setTxLoaded.cfgBidir = s.cfgBidir := rfl
@[simp] theorem State.setTxLoaded_cfgRxPresent : s.setTxLoaded.cfgRxPresent = s.cfgRxPresent := rfl
@[simp] theorem State.setTxLoaded_res : s.setTxLoaded.res = s.res := rfl
@[simp] theorem State.setTxLoaded_pkt : s.setTxLoaded.pkt = s.pkt := rfl
@[simp] theorem State.setTxLoaded_frame : s.setTxLoaded.frame = s.frame := rfl
@[simp] theorem State.setTxLoaded_frameValid : s.setTxLoaded.frameValid = s.frameValid := rfl
@[simp] theorem State.setTxLoaded_txLoaded : s.setTxLoaded.txLoaded = true := rfl
@[simp] theorem State.setTxLoaded_lastErpm : s.setTxLoaded.lastErpm = s.lastErpm := rfl
@[simp] theorem State.setTxLoaded_errIllegal : s.setTxLoaded.errIllegal = s.errIllegal := rfl
@[simp] theorem State.setTxLoaded_txf : s.setTxLoaded.txf = s.txf := rfl
@[simp] theorem State.setTxLoaded_txfNext : s.setTxLoaded.txfNext = s.txfNext := rfl
@[simp] theorem State.setTxLoaded_line : s.setTxLoaded.line = s.line := rfl
@[simp] theorem State.setTxLoaded_faults : s.setTxLoaded.faults = s.faults := rfl
@[simp] theorem State.setTxLoaded_precondOff : s.setTxLoaded.precondOff = s.precondOff := rfl
@[simp] theorem State.setTxLoaded_hist : s.setTxLoaded.hist = s.hist := rfl
@[simp] theorem State.setTxLoaded_lastThrottle : s.setTxLoaded.lastThrottle = s.lastThrottle := rfl
@[simp] theorem State.setTxLoaded_hostResult : s.setTxLoaded.hostResult = s.hostResult := rfl
@[simp] theorem State.setTxLoaded_inputs : s.setTxLoaded.inputs = s.inputs := rfl
@[simp] theorem State.setTxLoaded_rxTape : s.setTxLoaded.rxTape = s.rxTape := rfl
@[simp] theorem State.setTxLoaded_rxDraws : s.setTxLoaded.rxDraws = s.rxDraws := rfl
@[simp] theorem State.setTxLoaded_rxChannel : s.setTxLoaded.rxChannel = s.rxChannel := rfl

end setTxLoaded_fields

section setLastErpm_fields

variable (s : State) (v : Word)

@[simp] theorem State.setLastErpm_params : (s.setLastErpm v).params = s.params := rfl
@[simp] theorem State.setLastErpm_cfgMode : (s.setLastErpm v).cfgMode = s.cfgMode := rfl
@[simp] theorem State.setLastErpm_cfgBidir : (s.setLastErpm v).cfgBidir = s.cfgBidir := rfl
@[simp] theorem State.setLastErpm_cfgRxPresent : (s.setLastErpm v).cfgRxPresent = s.cfgRxPresent := rfl
@[simp] theorem State.setLastErpm_res : (s.setLastErpm v).res = s.res := rfl
@[simp] theorem State.setLastErpm_pkt : (s.setLastErpm v).pkt = s.pkt := rfl
@[simp] theorem State.setLastErpm_frame : (s.setLastErpm v).frame = s.frame := rfl
@[simp] theorem State.setLastErpm_frameValid : (s.setLastErpm v).frameValid = s.frameValid := rfl
@[simp] theorem State.setLastErpm_txLoaded : (s.setLastErpm v).txLoaded = s.txLoaded := rfl
@[simp] theorem State.setLastErpm_lastErpm : (s.setLastErpm v).lastErpm = v := rfl
@[simp] theorem State.setLastErpm_errIllegal : (s.setLastErpm v).errIllegal = s.errIllegal := rfl
@[simp] theorem State.setLastErpm_txf : (s.setLastErpm v).txf = s.txf := rfl
@[simp] theorem State.setLastErpm_txfNext : (s.setLastErpm v).txfNext = s.txfNext := rfl
@[simp] theorem State.setLastErpm_line : (s.setLastErpm v).line = s.line := rfl
@[simp] theorem State.setLastErpm_faults : (s.setLastErpm v).faults = s.faults := rfl
@[simp] theorem State.setLastErpm_precondOff : (s.setLastErpm v).precondOff = s.precondOff := rfl
@[simp] theorem State.setLastErpm_hist : (s.setLastErpm v).hist = s.hist := rfl
@[simp] theorem State.setLastErpm_lastThrottle : (s.setLastErpm v).lastThrottle = s.lastThrottle := rfl
@[simp] theorem State.setLastErpm_hostResult : (s.setLastErpm v).hostResult = s.hostResult := rfl
@[simp] theorem State.setLastErpm_inputs : (s.setLastErpm v).inputs = s.inputs := rfl
@[simp] theorem State.setLastErpm_rxTape : (s.setLastErpm v).rxTape = s.rxTape := rfl
@[simp] theorem State.setLastErpm_rxDraws : (s.setLastErpm v).rxDraws = s.rxDraws := rfl
@[simp] theorem State.setLastErpm_rxChannel : (s.setLastErpm v).rxChannel = s.rxChannel := rfl

end setLastErpm_fields

section record_fields

variable (s : State) (e : Event)

@[simp] theorem State.record_params : (s.record e).params = s.params := rfl
@[simp] theorem State.record_cfgMode : (s.record e).cfgMode = s.cfgMode := rfl
@[simp] theorem State.record_cfgBidir : (s.record e).cfgBidir = s.cfgBidir := rfl
@[simp] theorem State.record_cfgRxPresent : (s.record e).cfgRxPresent = s.cfgRxPresent := rfl
@[simp] theorem State.record_res : (s.record e).res = s.res := rfl
@[simp] theorem State.record_pkt : (s.record e).pkt = s.pkt := rfl
@[simp] theorem State.record_frame : (s.record e).frame = s.frame := rfl
@[simp] theorem State.record_frameValid : (s.record e).frameValid = s.frameValid := rfl
@[simp] theorem State.record_txLoaded : (s.record e).txLoaded = s.txLoaded := rfl
@[simp] theorem State.record_lastErpm : (s.record e).lastErpm = s.lastErpm := rfl
@[simp] theorem State.record_errIllegal : (s.record e).errIllegal = s.errIllegal := rfl
@[simp] theorem State.record_txf : (s.record e).txf = s.txf := rfl
@[simp] theorem State.record_txfNext : (s.record e).txfNext = s.txfNext := rfl
@[simp] theorem State.record_line : (s.record e).line = s.line := rfl
@[simp] theorem State.record_faults : (s.record e).faults = s.faults := rfl
@[simp] theorem State.record_precondOff : (s.record e).precondOff = s.precondOff := rfl
@[simp] theorem State.record_hist : (s.record e).hist = s.hist ++ [e] := rfl
@[simp] theorem State.record_lastThrottle : (s.record e).lastThrottle = s.lastThrottle := rfl
@[simp] theorem State.record_hostResult : (s.record e).hostResult = s.hostResult := rfl
@[simp] theorem State.record_inputs : (s.record e).inputs = s.inputs := rfl
@[simp] theorem State.record_rxTape : (s.record e).rxTape = s.rxTape := rfl
@[simp] theorem State.record_rxDraws : (s.record e).rxDraws = s.rxDraws := rfl
@[simp] theorem State.record_rxChannel : (s.record e).rxChannel = s.rxChannel := rfl

end record_fields

section setInputs_fields

variable (s : State) (is : List Input)

@[simp] theorem State.setInputs_params : (s.setInputs is).params = s.params := rfl
@[simp] theorem State.setInputs_cfgMode : (s.setInputs is).cfgMode = s.cfgMode := rfl
@[simp] theorem State.setInputs_cfgBidir : (s.setInputs is).cfgBidir = s.cfgBidir := rfl
@[simp] theorem State.setInputs_cfgRxPresent : (s.setInputs is).cfgRxPresent = s.cfgRxPresent := rfl
@[simp] theorem State.setInputs_res : (s.setInputs is).res = s.res := rfl
@[simp] theorem State.setInputs_pkt : (s.setInputs is).pkt = s.pkt := rfl
@[simp] theorem State.setInputs_frame : (s.setInputs is).frame = s.frame := rfl
@[simp] theorem State.setInputs_frameValid : (s.setInputs is).frameValid = s.frameValid := rfl
@[simp] theorem State.setInputs_txLoaded : (s.setInputs is).txLoaded = s.txLoaded := rfl
@[simp] theorem State.setInputs_lastErpm : (s.setInputs is).lastErpm = s.lastErpm := rfl
@[simp] theorem State.setInputs_errIllegal : (s.setInputs is).errIllegal = s.errIllegal := rfl
@[simp] theorem State.setInputs_txf : (s.setInputs is).txf = s.txf := rfl
@[simp] theorem State.setInputs_txfNext : (s.setInputs is).txfNext = s.txfNext := rfl
@[simp] theorem State.setInputs_line : (s.setInputs is).line = s.line := rfl
@[simp] theorem State.setInputs_faults : (s.setInputs is).faults = s.faults := rfl
@[simp] theorem State.setInputs_precondOff : (s.setInputs is).precondOff = s.precondOff := rfl
@[simp] theorem State.setInputs_hist : (s.setInputs is).hist = s.hist := rfl
@[simp] theorem State.setInputs_lastThrottle : (s.setInputs is).lastThrottle = s.lastThrottle := rfl
@[simp] theorem State.setInputs_hostResult : (s.setInputs is).hostResult = s.hostResult := rfl
@[simp] theorem State.setInputs_inputs : (s.setInputs is).inputs = is := rfl
@[simp] theorem State.setInputs_rxTape : (s.setInputs is).rxTape = s.rxTape := rfl
@[simp] theorem State.setInputs_rxDraws : (s.setInputs is).rxDraws = s.rxDraws := rfl
@[simp] theorem State.setInputs_rxChannel : (s.setInputs is).rxChannel = s.rxChannel := rfl

end setInputs_fields

section setLastThrottle_fields

variable (s : State) (t : Throttle)

@[simp] theorem State.setLastThrottle_params : (s.setLastThrottle t).params = s.params := rfl
@[simp] theorem State.setLastThrottle_cfgMode : (s.setLastThrottle t).cfgMode = s.cfgMode := rfl
@[simp] theorem State.setLastThrottle_cfgBidir : (s.setLastThrottle t).cfgBidir = s.cfgBidir := rfl
@[simp] theorem State.setLastThrottle_cfgRxPresent : (s.setLastThrottle t).cfgRxPresent = s.cfgRxPresent := rfl
@[simp] theorem State.setLastThrottle_res : (s.setLastThrottle t).res = s.res := rfl
@[simp] theorem State.setLastThrottle_pkt : (s.setLastThrottle t).pkt = s.pkt := rfl
@[simp] theorem State.setLastThrottle_frame : (s.setLastThrottle t).frame = s.frame := rfl
@[simp] theorem State.setLastThrottle_frameValid : (s.setLastThrottle t).frameValid = s.frameValid := rfl
@[simp] theorem State.setLastThrottle_txLoaded : (s.setLastThrottle t).txLoaded = s.txLoaded := rfl
@[simp] theorem State.setLastThrottle_lastErpm : (s.setLastThrottle t).lastErpm = s.lastErpm := rfl
@[simp] theorem State.setLastThrottle_errIllegal : (s.setLastThrottle t).errIllegal = s.errIllegal := rfl
@[simp] theorem State.setLastThrottle_txf : (s.setLastThrottle t).txf = s.txf := rfl
@[simp] theorem State.setLastThrottle_txfNext : (s.setLastThrottle t).txfNext = s.txfNext := rfl
@[simp] theorem State.setLastThrottle_line : (s.setLastThrottle t).line = s.line := rfl
@[simp] theorem State.setLastThrottle_faults : (s.setLastThrottle t).faults = s.faults := rfl
@[simp] theorem State.setLastThrottle_precondOff : (s.setLastThrottle t).precondOff = s.precondOff := rfl
@[simp] theorem State.setLastThrottle_hist : (s.setLastThrottle t).hist = s.hist := rfl
@[simp] theorem State.setLastThrottle_lastThrottle : (s.setLastThrottle t).lastThrottle = t := rfl
@[simp] theorem State.setLastThrottle_hostResult : (s.setLastThrottle t).hostResult = s.hostResult := rfl
@[simp] theorem State.setLastThrottle_inputs : (s.setLastThrottle t).inputs = s.inputs := rfl
@[simp] theorem State.setLastThrottle_rxTape : (s.setLastThrottle t).rxTape = s.rxTape := rfl
@[simp] theorem State.setLastThrottle_rxDraws : (s.setLastThrottle t).rxDraws = s.rxDraws := rfl
@[simp] theorem State.setLastThrottle_rxChannel : (s.setLastThrottle t).rxChannel = s.rxChannel := rfl

end setLastThrottle_fields

section setHostResult_fields

variable (s : State) (v : Word)

@[simp] theorem State.setHostResult_params : (s.setHostResult v).params = s.params := rfl
@[simp] theorem State.setHostResult_cfgMode : (s.setHostResult v).cfgMode = s.cfgMode := rfl
@[simp] theorem State.setHostResult_cfgBidir : (s.setHostResult v).cfgBidir = s.cfgBidir := rfl
@[simp] theorem State.setHostResult_cfgRxPresent : (s.setHostResult v).cfgRxPresent = s.cfgRxPresent := rfl
@[simp] theorem State.setHostResult_res : (s.setHostResult v).res = s.res := rfl
@[simp] theorem State.setHostResult_pkt : (s.setHostResult v).pkt = s.pkt := rfl
@[simp] theorem State.setHostResult_frame : (s.setHostResult v).frame = s.frame := rfl
@[simp] theorem State.setHostResult_frameValid : (s.setHostResult v).frameValid = s.frameValid := rfl
@[simp] theorem State.setHostResult_txLoaded : (s.setHostResult v).txLoaded = s.txLoaded := rfl
@[simp] theorem State.setHostResult_lastErpm : (s.setHostResult v).lastErpm = s.lastErpm := rfl
@[simp] theorem State.setHostResult_errIllegal : (s.setHostResult v).errIllegal = s.errIllegal := rfl
@[simp] theorem State.setHostResult_txf : (s.setHostResult v).txf = s.txf := rfl
@[simp] theorem State.setHostResult_txfNext : (s.setHostResult v).txfNext = s.txfNext := rfl
@[simp] theorem State.setHostResult_line : (s.setHostResult v).line = s.line := rfl
@[simp] theorem State.setHostResult_faults : (s.setHostResult v).faults = s.faults := rfl
@[simp] theorem State.setHostResult_precondOff : (s.setHostResult v).precondOff = s.precondOff := rfl
@[simp] theorem State.setHostResult_hist : (s.setHostResult v).hist = s.hist := rfl
@[simp] theorem State.setHostResult_lastThrottle : (s.setHostResult v).lastThrottle = s.lastThrottle := rfl
@[simp] theorem State.setHostResult_hostResult : (s.setHostResult v).hostResult = v := rfl
@[simp] theorem State.setHostResult_inputs : (s.setHostResult v).inputs = s.inputs := rfl
@[simp] theorem State.setHostResult_rxTape : (s.setHostResult v).rxTape = s.rxTape := rfl
@[simp] theorem State.setHostResult_rxDraws : (s.setHostResult v).rxDraws = s.rxDraws := rfl
@[simp] theorem State.setHostResult_rxChannel : (s.setHostResult v).rxChannel = s.rxChannel := rfl

end setHostResult_fields

section markIfOff_fields

variable (s : State)

@[simp] theorem State.markIfOff_params : s.markIfOff.params = s.params := rfl
@[simp] theorem State.markIfOff_cfgMode : s.markIfOff.cfgMode = s.cfgMode := rfl
@[simp] theorem State.markIfOff_cfgBidir : s.markIfOff.cfgBidir = s.cfgBidir := rfl
@[simp] theorem State.markIfOff_cfgRxPresent : s.markIfOff.cfgRxPresent = s.cfgRxPresent := rfl
@[simp] theorem State.markIfOff_res : s.markIfOff.res = s.res := rfl
@[simp] theorem State.markIfOff_pkt : s.markIfOff.pkt = s.pkt := rfl
@[simp] theorem State.markIfOff_frame : s.markIfOff.frame = s.frame := rfl
@[simp] theorem State.markIfOff_frameValid : s.markIfOff.frameValid = s.frameValid := rfl
@[simp] theorem State.markIfOff_txLoaded : s.markIfOff.txLoaded = s.txLoaded := rfl
@[simp] theorem State.markIfOff_lastErpm : s.markIfOff.lastErpm = s.lastErpm := rfl
@[simp] theorem State.markIfOff_errIllegal : s.markIfOff.errIllegal = s.errIllegal := rfl
@[simp] theorem State.markIfOff_txf : s.markIfOff.txf = s.txf := rfl
@[simp] theorem State.markIfOff_txfNext : s.markIfOff.txfNext = s.txfNext := rfl
@[simp] theorem State.markIfOff_line : s.markIfOff.line = s.line := rfl
@[simp] theorem State.markIfOff_faults : s.markIfOff.faults = s.faults := rfl
@[simp] theorem State.markIfOff_precondOff : s.markIfOff.precondOff = (s.precondOff || s.cfgMode == 0) := rfl
@[simp] theorem State.markIfOff_hist : s.markIfOff.hist = s.hist := rfl
@[simp] theorem State.markIfOff_lastThrottle : s.markIfOff.lastThrottle = s.lastThrottle := rfl
@[simp] theorem State.markIfOff_hostResult : s.markIfOff.hostResult = s.hostResult := rfl
@[simp] theorem State.markIfOff_inputs : s.markIfOff.inputs = s.inputs := rfl
@[simp] theorem State.markIfOff_rxTape : s.markIfOff.rxTape = s.rxTape := rfl
@[simp] theorem State.markIfOff_rxDraws : s.markIfOff.rxDraws = s.rxDraws := rfl
@[simp] theorem State.markIfOff_rxChannel : s.markIfOff.rxChannel = s.rxChannel := rfl

end markIfOff_fields

section txLoad_fields

variable (s : State) (f : Frame)

@[simp] theorem txLoad_params : (txLoad f s).params = s.params := rfl
@[simp] theorem txLoad_cfgMode : (txLoad f s).cfgMode = s.cfgMode := rfl
@[simp] theorem txLoad_cfgBidir : (txLoad f s).cfgBidir = s.cfgBidir := rfl
@[simp] theorem txLoad_cfgRxPresent : (txLoad f s).cfgRxPresent = s.cfgRxPresent := rfl
@[simp] theorem txLoad_res : (txLoad f s).res = s.res := rfl
@[simp] theorem txLoad_pkt : (txLoad f s).pkt = s.pkt := rfl
@[simp] theorem txLoad_frame : (txLoad f s).frame = s.frame := rfl
@[simp] theorem txLoad_frameValid : (txLoad f s).frameValid = s.frameValid := rfl
@[simp] theorem txLoad_txLoaded : (txLoad f s).txLoaded = s.txLoaded := rfl
@[simp] theorem txLoad_lastErpm : (txLoad f s).lastErpm = s.lastErpm := rfl
@[simp] theorem txLoad_errIllegal : (txLoad f s).errIllegal = s.errIllegal := rfl
@[simp] theorem txLoad_txf : (txLoad f s).txf = s.txf := rfl
@[simp] theorem txLoad_txfNext : (txLoad f s).txfNext = some f := rfl
@[simp] theorem txLoad_line : (txLoad f s).line = s.line := rfl
@[simp] theorem txLoad_faults : (txLoad f s).faults = s.faults := rfl
@[simp] theorem txLoad_precondOff : (txLoad f s).precondOff = s.precondOff := rfl
@[simp] theorem txLoad_hist : (txLoad f s).hist = s.hist ++ [.txLoad f] := rfl
@[simp] theorem txLoad_lastThrottle : (txLoad f s).lastThrottle = s.lastThrottle := rfl
@[simp] theorem txLoad_hostResult : (txLoad f s).hostResult = s.hostResult := rfl
@[simp] theorem txLoad_inputs : (txLoad f s).inputs = s.inputs := rfl
@[simp] theorem txLoad_rxTape : (txLoad f s).rxTape = s.rxTape := rfl
@[simp] theorem txLoad_rxDraws : (txLoad f s).rxDraws = s.rxDraws := rfl
@[simp] theorem txLoad_rxChannel : (txLoad f s).rxChannel = s.rxChannel := rfl

end txLoad_fields

section rxPoll_fields

variable (s : State)

@[simp] theorem rxPoll_params : (rxPoll s).params = s.params := rfl
@[simp] theorem rxPoll_cfgMode : (rxPoll s).cfgMode = s.cfgMode := rfl
@[simp] theorem rxPoll_cfgBidir : (rxPoll s).cfgBidir = s.cfgBidir := rfl
@[simp] theorem rxPoll_cfgRxPresent : (rxPoll s).cfgRxPresent = s.cfgRxPresent := rfl
@[simp] theorem rxPoll_res : (rxPoll s).res = s.res := rfl
@[simp] theorem rxPoll_pkt : (rxPoll s).pkt = s.pkt := rfl
@[simp] theorem rxPoll_frame : (rxPoll s).frame = s.frame := rfl
@[simp] theorem rxPoll_frameValid : (rxPoll s).frameValid = s.frameValid := rfl
@[simp] theorem rxPoll_txLoaded : (rxPoll s).txLoaded = s.txLoaded := rfl
@[simp] theorem rxPoll_lastErpm : (rxPoll s).lastErpm = s.lastErpm := rfl
@[simp] theorem rxPoll_errIllegal : (rxPoll s).errIllegal = s.errIllegal := rfl
@[simp] theorem rxPoll_txf : (rxPoll s).txf = s.txf := rfl
@[simp] theorem rxPoll_txfNext : (rxPoll s).txfNext = s.txfNext := rfl
@[simp] theorem rxPoll_line : (rxPoll s).line = s.line := rfl
@[simp] theorem rxPoll_faults : (rxPoll s).faults = s.faults := rfl
@[simp] theorem rxPoll_precondOff : (rxPoll s).precondOff = s.precondOff := rfl
@[simp] theorem rxPoll_hist : (rxPoll s).hist = s.hist ++ [.rxPoll (nextAnswer s)] := rfl
@[simp] theorem rxPoll_lastThrottle : (rxPoll s).lastThrottle = s.lastThrottle := rfl
@[simp] theorem rxPoll_hostResult : (rxPoll s).hostResult = s.hostResult := rfl
@[simp] theorem rxPoll_inputs : (rxPoll s).inputs = s.inputs := rfl
@[simp] theorem rxPoll_rxTape : (rxPoll s).rxTape = s.rxTape.tail := rfl
@[simp] theorem rxPoll_rxDraws : (rxPoll s).rxDraws = if s.rxTape.isEmpty then s.rxDraws + 1 else s.rxDraws := rfl
@[simp] theorem rxPoll_rxChannel : (rxPoll s).rxChannel = s.rxChannel := rfl

end rxPoll_fields

end Sys2Proof.Machine
end

