-- ==== Sys2Proof/Laws/Ops.lean ====
section
/-! SUPPORT. Ops.lean: for each shared operation, what it can do, said once: outcomes in sequence, the fault set, the
receive poll, the profile lookup, the transceiver's step, and reset. -/

namespace Sys2Proof.Machine

/-! ### Outcomes in sequence -/

@[simp] theorem andThen_next (s : State) (k : State → Outcome) : andThen (.next s) k = k s := rfl

/-- A sequence ends in a next state exactly when its first part does and the rest goes on from there. -/
theorem andThen_eq_next {o : Outcome} {k : State → Outcome} {t : State} :
    andThen o k = .next t ↔ ∃ s, o = .next s ∧ k s = .next t := by
  cases o <;> simp [andThen]

/-! ### The fault set -/

/-- Different records have different keys. -/
theorem FaultRecord.key_injective {a b : FaultRecord} (h : a.key = b.key) : a = b := by
  obtain ⟨ca, wa⟩ := a
  obtain ⟨cb, wb⟩ := b
  unfold FaultRecord.key at h
  have hca : ca.code < 8 := by cases ca <;> decide
  have hcb : cb.code < 8 := by cases cb <;> decide
  have hw : wa.toNat = wb.toNat := by simp only at h; omega
  have hc : ca.code = cb.code := by simp only at h; omega
  have hc' : ca = cb := by cases ca <;> cases cb <;> simp_all [IllegalCause.code]
  rw [hc', BitVec.eq_of_toNat_eq hw]

/-- Inserting a record makes the set hold it and what it held. -/
@[simp] theorem mem_insertFault (r x : FaultRecord) (l : List FaultRecord) :
    x ∈ insertFault r l ↔ x = r ∨ x ∈ l := by
  induction l with
  | nil => simp [insertFault]
  | cons y ys ih =>
    unfold insertFault
    split
    case isTrue => simp
    case isFalse =>
      split
      case isTrue h => simp [FaultRecord.key_injective h]
      case isFalse => simp only [List.mem_cons, ih]; tauto

@[simp] theorem insertFault_ne_nil (r : FaultRecord) (l : List FaultRecord) : insertFault r l ≠ [] := by
  intro h
  have : r ∈ insertFault r l := by simp
  simp [h] at this

/-- Inserting a record keeps the one canonical form. -/
theorem insertFault_pairwise (r : FaultRecord) (l : List FaultRecord) (h : l.Pairwise fun a b => a.key < b.key) :
    (insertFault r l).Pairwise fun a b => a.key < b.key := by
  induction l with
  | nil => simp [insertFault]
  | cons y ys ih =>
    have ⟨hy, hys⟩ := List.pairwise_cons.mp h
    unfold insertFault
    split
    case isTrue hlt =>
      refine List.pairwise_cons.mpr ⟨fun x hx => ?_, h⟩
      rcases List.mem_cons.mp hx with rfl | hx
      · exact hlt
      · exact hlt.trans (hy x hx)
    case isFalse hlt =>
      split
      case isTrue => exact h
      case isFalse hne =>
        refine List.pairwise_cons.mpr ⟨fun x hx => ?_, ih hys⟩
        rcases (mem_insertFault r x ys).mp hx with rfl | hx
        · omega
        · exact hy x hx

/-! ### The timing table -/

/-- A grade has a profile exactly when its code is not reserved (R100). -/
theorem profile_isSome (g : GradeCode) : (profile g).isSome = !modeReserved g :=
  (by decide : ∀ g : GradeCode, (profile g).isSome = !modeReserved g) g

/-- The profile of a code that is not reserved. -/
theorem exists_profile {g : GradeCode} (h : modeReserved g = false) : ∃ t, profile g = some t := by
  have := profile_isSome g
  rw [h] at this
  exact Option.isSome_iff_exists.mp this

/-- The five rows of the table (R100). -/
theorem profile_cases {g : GradeCode} {t : TimingProfile} (h : profile g = some t) :
    (g = 0 ∧ t = ⟨0, 0, 0⟩) ∨ (g = 1 ∧ t = ⟨64, 24, 48⟩) ∨ (g = 2 ∧ t = ⟨32, 12, 24⟩) ∨ (g = 3 ∧ t = ⟨16, 6, 12⟩) ∨
      (g = 4 ∧ t = ⟨8, 3, 6⟩) := by
  have key : ∀ g : GradeCode, profile g = none ∨ (g = 0 ∧ profile g = some ⟨0, 0, 0⟩) ∨
      (g = 1 ∧ profile g = some ⟨64, 24, 48⟩) ∨ (g = 2 ∧ profile g = some ⟨32, 12, 24⟩) ∨
      (g = 3 ∧ profile g = some ⟨16, 6, 12⟩) ∨ (g = 4 ∧ profile g = some ⟨8, 3, 6⟩) := by decide
  rcases key g with hg | ⟨rfl, hg⟩ | ⟨rfl, hg⟩ | ⟨rfl, hg⟩ | ⟨rfl, hg⟩ | ⟨rfl, hg⟩ <;> rw [hg] at h <;> cases h <;> simp

/-! ### The receive poll -/

/-- A poll with an answer on the tape gets that answer, at the bounds of R60. -/
theorem nextAnswer_of_cons {s : State} {a : Option (List LineSymbol)} {rest : List (Option (List LineSymbol))}
    (h : s.rxTape = a :: rest) : nextAnswer s = boundAnswer s.params a := by
  simp [nextAnswer, h]

/-- `DECODE`'s polling half in one equation: the poll, and `LAST_ERPM` replaced when the answer decodes (R169). -/
theorem pollTelemetry_eq (s : State) : pollTelemetry s =
    (rxPoll s).setLastErpm (((nextAnswer s).bind (decodeFrame s.params.erpmScale)).getD s.lastErpm) := by
  unfold pollTelemetry
  cases (nextAnswer s).bind (decodeFrame s.params.erpmScale) <;> rfl

/-! ### The transceiver -/

/-- The transceiver's step in one equation: a frame handed over becomes the looped one, and the line carries one copy
of the looped frame (R58). -/
theorem frameBoundary_eq (s : State) : frameBoundary s = { s with
    txf := s.txfNext.or s.txf
    txfNext := none
    line := s.line ++ ((s.txfNext.or s.txf).map frameSegments).getD [] } := by
  cases hn : s.txfNext <;> cases hx : s.txf <;> cases s <;> simp_all [frameBoundary, carryFrame, startNext]

/-- One more copy in one equation: only the line changes (R224). -/
theorem frameRepeat_eq (s : State) :
    frameRepeat s = { s with line := s.line ++ (s.txf.map frameSegments).getD [] } := by
  cases hx : s.txf <;> cases s <;> simp_all [frameRepeat, carryFrame]

/-! ### The host's clamp -/

/-- The clamped throttle as a number: the mask never changes it (R181). -/
theorem clampThrottle_toNat (r : BitVec 16) : (clampThrottle r).toNat = max 48 (min r.toNat 2047) := by
  have key : ∀ n, n < 2048 → ((BitVec.ofNat 16 n &&& 0x7FF#16).setWidth 11).toNat = n := by
    intro n hn
    simp only [BitVec.toNat_setWidth, BitVec.toNat_and, BitVec.toNat_ofNat]
    rw [show (2047 % 2 ^ 16 : Nat) = 2 ^ 11 - 1 by decide, Nat.and_two_pow_sub_one_eq_mod]
    omega
  have e1 : Config.thrMin = 48 := rfl
  have e2 : Config.thrMax = 2047 := rfl
  simp only [clampThrottle]
  by_cases h1 : r.toNat < Config.thrMin
  · rw [if_pos h1, key _ (by omega)]; omega
  · rw [if_neg h1]
    by_cases h2 : r.toNat > Config.thrMax
    · rw [if_pos h2, key _ (by omega)]; omega
    · rw [if_neg h2, key _ (by omega)]; omega

end Sys2Proof.Machine
end

