-- ==== Sys2Proof/Laws/PerInstr.lean ====
section
/-! SUPPORT. PerInstr.lean: for every command, one lemma of the family named in LAWS.json: its word is selected by a
row of the opcode map, and that row rebuilds the command from the word. -/

namespace Sys2Proof.Laws.EncodesItsRow

open Sys2Proof Sys2Proof.Machine

/-- The command's word is selected by a row of the map, whose fields give the command back. -/
def Statement (i : Instr) : Prop :=
  ∃ k, ∃ hk : k < 11, (opRows[k]'hk).selects (encode i) = true ∧ (opRows[k]'hk).build (encode i) = i

/-- A row selects a word whose masked bits are the row's, bit by bit. -/
theorem selects_of_bits (r : OpRow) (w : Word)
    (h : ∀ i, i < 32 → (w.getLsbD i && r.mask.getLsbD i) = r.matchBits.getLsbD i) : r.selects w = true := by
  unfold OpRow.selects
  rw [beq_iff_eq]
  exact BitVec.eq_of_getLsbD_eq fun i hi => (BitVec.getLsbD_and (x := w) (y := r.mask)).trans (h i hi)

theorem nop : Statement .nop := ⟨0, by decide, by decide, by decide⟩

theorem csum (d : Data12) (p : Bool) : Statement (.csum d p) := by
  refine ⟨1, by decide, selects_of_bits _ _ fun i hi => ?_, ?_⟩
  · simp only [opRows, List.getElem_cons_zero, List.getElem_cons_succ, encode, BitVec.getLsbD_or, getLsbD_place]
    interval_cases i <;> simp
  · simp only [opRows, List.getElem_cons_zero, List.getElem_cons_succ, Instr.csum.injEq]
    refine ⟨BitVec.eq_of_getLsbD_eq fun i hi => ?_, ?_⟩
    · simp only [encode, data12Field, BitVec.getLsbD_extractLsb', BitVec.getLsbD_or, getLsbD_place]
      interval_cases i <;> simp
    · simp only [encode, polFieldC, BitVec.getLsbD_or, getLsbD_place]
      simp

theorem verify (k : Packet) (p : Bool) : Statement (.verify k p) := by
  refine ⟨2, by decide, selects_of_bits _ _ fun i hi => ?_, ?_⟩
  · simp only [opRows, List.getElem_cons_zero, List.getElem_cons_succ, encode, BitVec.getLsbD_or, getLsbD_place]
    interval_cases i <;> simp
  · simp only [opRows, List.getElem_cons_zero, List.getElem_cons_succ, Instr.verify.injEq]
    refine ⟨BitVec.eq_of_getLsbD_eq fun i hi => ?_, ?_⟩
    · simp only [encode, pkt16Field, BitVec.getLsbD_extractLsb', BitVec.getLsbD_or, getLsbD_place]
      interval_cases i <;> simp
    · simp only [encode, polFieldV, BitVec.getLsbD_or, getLsbD_place]
      simp

theorem assemble (t : Throttle) : Statement (.assemble t) := by
  refine ⟨3, by decide, selects_of_bits _ _ fun i hi => ?_, ?_⟩
  · simp only [opRows, List.getElem_cons_zero, List.getElem_cons_succ, encode, BitVec.getLsbD_or, getLsbD_place]
    interval_cases i <;> simp
  · simp only [opRows, List.getElem_cons_zero, List.getElem_cons_succ, Instr.assemble.injEq]
    refine BitVec.eq_of_getLsbD_eq fun i hi => ?_
    simp only [encode, thrField, BitVec.getLsbD_extractLsb', BitVec.getLsbD_or, getLsbD_place]
    interval_cases i <;> simp

theorem lut (g : GradeCode) : Statement (.lut g) := by
  refine ⟨4, by decide, selects_of_bits _ _ fun i hi => ?_, ?_⟩
  · simp only [opRows, List.getElem_cons_zero, List.getElem_cons_succ, encode, BitVec.getLsbD_or, getLsbD_place]
    interval_cases i <;> simp
  · simp only [opRows, List.getElem_cons_zero, List.getElem_cons_succ, Instr.lut.injEq]
    refine BitVec.eq_of_getLsbD_eq fun i hi => ?_
    simp only [encode, gradeField, BitVec.getLsbD_extractLsb', BitVec.getLsbD_or, getLsbD_place]
    interval_cases i <;> simp

theorem encode (k : Packet) : Statement (.encode k) := by
  refine ⟨5, by decide, selects_of_bits _ _ fun i hi => ?_, ?_⟩
  · simp only [opRows, List.getElem_cons_zero, List.getElem_cons_succ, Sys2Proof.encode, BitVec.getLsbD_or,
      getLsbD_place]
    interval_cases i <;> simp
  · simp only [opRows, List.getElem_cons_zero, List.getElem_cons_succ, Instr.encode.injEq]
    refine BitVec.eq_of_getLsbD_eq fun i hi => ?_
    simp only [Sys2Proof.encode, pkt16Field, BitVec.getLsbD_extractLsb', BitVec.getLsbD_or, getLsbD_place]
    interval_cases i <;> simp

theorem transmit : Statement .transmit := ⟨6, by decide, by decide, by decide⟩

theorem send (t : Throttle) : Statement (.send t) := by
  refine ⟨7, by decide, selects_of_bits _ _ fun i hi => ?_, ?_⟩
  · simp only [opRows, List.getElem_cons_zero, List.getElem_cons_succ, Sys2Proof.encode, BitVec.getLsbD_or,
      getLsbD_place]
    interval_cases i <;> simp
  · simp only [opRows, List.getElem_cons_zero, List.getElem_cons_succ, Instr.send.injEq]
    refine BitVec.eq_of_getLsbD_eq fun i hi => ?_
    simp only [Sys2Proof.encode, thrField, BitVec.getLsbD_extractLsb', BitVec.getLsbD_or, getLsbD_place]
    interval_cases i <;> simp

theorem decode : Statement .decode := ⟨8, by decide, by decide, by decide⟩

theorem readErpm : Statement .readErpm := ⟨9, by decide, by decide, by decide⟩

theorem readStatus : Statement .readStatus := ⟨10, by decide, by decide, by decide⟩

end Sys2Proof.Laws.EncodesItsRow
end

