-- ==== Sys2Proof/Laws/Safety.lean ====
section
/-! SUPPORT. Safety.lean: small lemmas about the properties of Safety.lean: a drawn answer is within its bounds, an
encoded frame's durations fit, and how the hand-overs of a history add up. -/

namespace Sys2Proof.Machine

/-- Every record of parameters is within the ranges of R8. -/
theorem params_legal (p : Params) : p.Legal := by
  refine ⟨by simp [Params.pauseBits], ?_⟩
  have h : 64 * p.pauseBits < 2 ^ (Nat.log2 (64 * p.pauseBits) + 1) := Nat.lt_log2_self
  have h2 := Nat.pow_le_pow_right (n := 2) (by decide) (Nat.le_add_right (Nat.log2 (64 * p.pauseBits) + 1) p.durWAboveLeast)
  unfold Params.durW
  omega

/-- A symbol at a width fits it. -/
@[simp] theorem symbol_fits_toWidth (w : Nat) (y : LineSymbol) : (y.toWidth w).fits w = true := by
  simp [LineSymbol.fits, LineSymbol.toWidth, Nat.mod_lt]

/-- A symbol that fits a width is the same at that width. -/
theorem symbol_toWidth_of_fits {w : Nat} {y : LineSymbol} (h : y.fits w = true) : y.toWidth w = y := by
  have ⟨h0, h1⟩ : y.dur0 < 2 ^ w ∧ y.dur1 < 2 ^ w := by simpa [LineSymbol.fits] using h
  simp [LineSymbol.toWidth, Nat.mod_eq_of_lt h0, Nat.mod_eq_of_lt h1]

/-- A frame at a width fits it. -/
@[simp] theorem frame_fits_toWidth (w : Nat) (f : Frame) : Frame.fits w (Frame.toWidth w f) = true := by
  simp [Frame.fits, Frame.toWidth, Vector.toList_map]

/-- A frame that fits a width is the same at that width. -/
theorem frame_toWidth_of_fits {w : Nat} {f : Frame} (h : Frame.fits w f = true) : Frame.toWidth w f = f := by
  have hf : ∀ y ∈ f.toList, y.fits w = true := List.all_eq_true.mp h
  refine Vector.ext fun i hi => ?_
  rw [Frame.toWidth, Vector.getElem_map]
  exact symbol_toWidth_of_fits (hf f[i] (by simp))

/-- An answer at the bounds of R60 is within them. -/
theorem boundAnswer_bounded (p : Params) (a : Option (List LineSymbol)) : AnswerBounded p (boundAnswer p a) := by
  cases a with
  | none => trivial
  | some l =>
    refine ⟨by simp, fun y hy => ?_⟩
    obtain ⟨x, -, rfl⟩ := List.mem_map.mp hy
    simp

/-- An answer within the bounds of R60 is taken as it is. -/
theorem boundAnswer_of_bounded {p : Params} {a : Option (List LineSymbol)} (h : AnswerBounded p a) :
    boundAnswer p a = a := by
  cases a with
  | none => rfl
  | some l =>
    obtain ⟨hl, hy⟩ := h
    rw [boundAnswer, Option.map_some, List.take_of_length_le hl,
      List.map_congr_left fun y hm => symbol_toWidth_of_fits (hy y hm), List.map_id'']
    intro y
    rfl

/-- Every poll's answer is within the bounds of R60. -/
theorem nextAnswer_bounded (s : State) : AnswerBounded s.params (nextAnswer s) := by
  unfold nextAnswer
  split <;> exact boundAnswer_bounded _ _

@[simp] theorem loadsOf_append (a b : List Event) : loadsOf (a ++ b) = loadsOf a ++ loadsOf b := by
  induction a with
  | nil => rfl
  | cons e es ih => cases e <;> simp [loadsOf, ih]

/-- Every duration of an encoded frame fits `DUR_W` (R8, R14). -/
theorem encodeFrame_fits (q : Params) (p : Packet) {g : GradeCode} {t : TimingProfile}
    (h : profile g = some t) : (encodeFrame q.pauseBits p t).fits q.durW = true := by
  obtain ⟨h1, hl⟩ := params_legal q
  have hb : t.hi0 ≤ 64 ∧ t.hi1 ≤ 64 ∧ t.tpb ≤ 64 := by
    rcases profile_cases h with ⟨_, rfl⟩ | ⟨_, rfl⟩ | ⟨_, rfl⟩ | ⟨_, rfl⟩ | ⟨_, rfl⟩ <;> simp
  have hp : 0 < 2 ^ q.durW := Nat.two_pow_pos _
  have hlt : 64 * q.pauseBits < 2 ^ q.durW := by omega
  unfold Frame.fits
  rw [encodeFrame_toList]
  simp only [List.all_append, List.all_map, Bool.and_eq_true, List.all_eq_true, List.mem_range, List.all_cons,
    List.all_nil, and_true, Function.comp]
  refine ⟨fun i _ => ?_, ?_⟩
  · cases p.getLsbD (15 - i) <;> simp [dataSymbol, LineSymbol.fits] <;> omega
  · have : t.tpb * q.pauseBits ≤ 64 * q.pauseBits := Nat.mul_le_mul_right _ hb.2.2
    simp [pauseSymbol, LineSymbol.fits, Nat.lt_of_le_of_lt this hlt]

end Sys2Proof.Machine
end

