-- ==== Sys2Proof/Laws/Step.lean ====
section
/-! SUPPORT. Step.lean: what one command, one call of the host and one step can do, said once as a case list, so that a
property of every step is proved by these cases and not by unfolding the machine. -/

namespace Sys2Proof.Machine

/-- What performing a command can do to the state. -/
inductive Effect (s : State) : Instr → State → Prop
  /-- nothing, or only `RES` written. -/
  | result (i : Instr) (v : Word) : Effect s i (s.setRes v)
  /-- the packet register and `RES` written with an assembled packet. -/
  | packet (thr : Throttle) :
    Effect s (.assemble thr)
      ((s.setPkt (assemblePacket thr s.cfgBidir)).setRes (zext (assemblePacket thr s.cfgBidir)))
  /-- `LUT` of a reserved grade rejected. -/
  | badGrade (g : GradeCode) (hg : 5 ≤ g.toNat) :
    Effect s (.lut g)
      { s with errIllegal := true, faults := insertFault ⟨.illGrade, encode (.lut g)⟩ s.faults }
  /-- `TRANSMIT` without a frame rejected. -/
  | noFrame (hv : s.frameValid = false) :
    Effect s .transmit
      { s with errIllegal := true, faults := insertFault ⟨.illNoFrame, encode .transmit⟩ s.faults }
  /-- a frame encoded. -/
  | encoded (p : Packet) (t : TimingProfile) (ht : profile s.cfgMode = some t) :
    Effect s (.encode p) ((s.markIfOff.storeFrame (encodeFrame s.params.pauseBits p t)).setRes frameCount)
  /-- the frame handed over. -/
  | handedOver (hv : s.frameValid = true) :
    Effect s .transmit ((txLoad s.frame s).setTxLoaded.setRes frameCount)
  /-- a packet assembled, encoded and handed over. -/
  | sent (thr : Throttle) (t : TimingProfile) (ht : profile s.cfgMode = some t) :
    Effect s (.send thr)
      ((txLoad (encodeFrame s.params.pauseBits (assemblePacket thr s.cfgBidir) t)
        ((s.markIfOff.setPkt (assemblePacket thr s.cfgBidir)).storeFrame
          (encodeFrame s.params.pauseBits (assemblePacket thr s.cfgBidir) t))).setTxLoaded.setRes
        (zext (assemblePacket thr s.cfgBidir)))
  /-- the receiver polled. -/
  | polled (hb : s.cfgBidir = true) (hr : s.cfgRxPresent = true) :
    Effect s .decode ((pollTelemetry s).setRes (pollTelemetry s).lastErpm)

/-- `ENCODE` in one equation (R144). -/
theorem exec_encode {s : State} {t : TimingProfile} (h : profile s.cfgMode = some t) (p : Packet) :
    exec (.encode p) s = .next { s with
      frame := encodeFrame s.params.pauseBits p t
      frameValid := true
      precondOff := s.precondOff || s.cfgMode == 0
      res := 17 } := by
  simp only [exec, execEncode, h, frameCount_eq, State.setRes, State.markIfOff, State.storeFrame]

/-- `TRANSMIT` with a frame, in one equation (R145). -/
theorem exec_transmit {s : State} (h : s.frameValid = true) :
    exec .transmit s = .next { s with
      txfNext := some s.frame
      hist := s.hist ++ [.txLoad s.frame]
      txLoaded := true
      res := 17 } := by
  simp only [exec, execTransmit, if_pos h, frameCount_eq, State.setRes, State.setTxLoaded, txLoad]

/-- `SEND` in one equation (R146). -/
theorem exec_send {s : State} {t : TimingProfile} (h : profile s.cfgMode = some t) (thr : Throttle) :
    exec (.send thr) s = .next { s with
      pkt := assemblePacket thr s.cfgBidir
      frame := encodeFrame s.params.pauseBits (assemblePacket thr s.cfgBidir) t
      frameValid := true
      precondOff := s.precondOff || s.cfgMode == 0
      txfNext := some (encodeFrame s.params.pauseBits (assemblePacket thr s.cfgBidir) t)
      hist := s.hist ++ [.txLoad (encodeFrame s.params.pauseBits (assemblePacket thr s.cfgBidir) t)]
      txLoaded := true
      res := zext (assemblePacket thr s.cfgBidir) } := by
  simp only [exec, execSend, h, State.setRes, State.setTxLoaded, txLoad, State.storeFrame, State.setPkt,
    State.markIfOff]

/-- `DECODE` with a receive channel in bidirectional mode, in one equation (R169). -/
theorem exec_decode {s : State} (hb : s.cfgBidir = true) (hr : s.cfgRxPresent = true) :
    exec .decode s = .next { s with
      hist := s.hist ++ [.rxPoll (nextAnswer s)]
      rxTape := s.rxTape.tail
      rxDraws := if s.rxTape.isEmpty then s.rxDraws + 1 else s.rxDraws
      lastErpm := ((nextAnswer s).bind (decodeFrame s.params.erpmScale)).getD s.lastErpm
      res := ((nextAnswer s).bind (decodeFrame s.params.erpmScale)).getD s.lastErpm } := by
  simp only [exec, execDecode]
  rw [if_pos (by simp [hb, hr]), pollTelemetry_eq]
  rfl

/-- A performed command has one of those effects. -/
theorem exec_effect {i : Instr} {s t : State} (h : exec i s = .next t) : Effect s i t := by
  cases i with
  | nop => cases h; exact .result .nop s.res
  | csum d p => cases h; exact .result _ _
  | verify k p => cases h; exact .result _ _
  | assemble thr => cases h; exact .packet thr
  | lut g =>
    simp only [exec, execLut] at h
    split at h
    · cases h; exact .result _ _
    · rename_i hn
      have hs := profile_isSome g
      rw [hn] at hs
      have hg : 5 ≤ g.toNat := by simpa [modeReserved] using hs
      cases h; exact .badGrade g hg
  | encode p =>
    simp only [exec, execEncode] at h
    split at h
    · rename_i t ht
      cases h; exact .encoded p t ht
    · cases h
  | transmit =>
    simp only [exec, execTransmit] at h
    split at h
    · rename_i hv
      cases h; exact .handedOver hv
    · rename_i hv
      cases h; exact .noFrame (by simpa using hv)
  | send thr =>
    simp only [exec, execSend] at h
    split at h
    · rename_i t ht
      cases h; exact .sent thr t ht
    · cases h
  | decode =>
    simp only [exec, execDecode, Host.Outcome.next.injEq] at h
    split at h
    · rename_i hc
      have ⟨hb, hr⟩ := Bool.and_eq_true_iff.mp hc
      cases h; exact .polled hb hr
    · cases h; exact .result _ _
  | readErpm => cases h; exact .result _ _
  | readStatus => cases h; exact .result _ _

/-- A command performs, from a defined grade. -/
theorem exec_completes {s : State} (h : modeReserved s.cfgMode = false) (i : Instr) : ∃ t, exec i s = .next t := by
  obtain ⟨p, hp⟩ := exists_profile h
  cases i with
  | lut g => simp only [exec, execLut]; split <;> exact ⟨_, rfl⟩
  | encode k => exact ⟨_, by simp only [exec, execEncode, hp]; rfl⟩
  | transmit => simp only [exec, execTransmit]; split <;> exact ⟨_, rfl⟩
  | send thr => exact ⟨_, by simp only [exec, execSend, hp]; rfl⟩
  | _ => exact ⟨_, rfl⟩

/-- What issuing a word can do: perform its command, or reject it. -/
theorem issue_cases {w : Word} {s t : State} (h : issue w s = .next t) :
    (∃ i, decode w = .ok i ∧ exec i (s.record (.command w)) = .next t) ∨
      ∃ c, decode w = .error c ∧ t = { s.record (.command w) with
        errIllegal := true
        faults := insertFault ⟨c, w⟩ s.faults } := by
  unfold issue at h
  split at h
  · exact .inl ⟨_, ‹_›, h⟩
  · cases h; exact .inr ⟨_, ‹_›, rfl⟩

theorem issue_completes {s : State} (h : modeReserved s.cfgMode = false) (w : Word) : ∃ t, issue w s = .next t := by
  unfold issue
  split
  · exact exec_completes (by simpa using h) _
  · exact ⟨_, rfl⟩

/-- Issuing the word of a command performs it. -/
theorem issue_encode (i : Instr) (s : State) (h : decode (encode i) = .ok i) :
    issue (encode i) s = exec i (s.record (.command (encode i))) := by
  simp [issue, h]

/-- From a defined grade a step does the next input, with the input taken (R90, R94). -/
theorem step_of_input {s : State} {i : Input} {rest : List Input} (hm : modeReserved s.cfgMode = false)
    (h : s.inputs = i :: rest) : step s = applyInput i (s.setInputs rest) := by
  unfold step advance
  simp [hm, h]

/-- From a defined grade with nothing pending, a step is the transceiver's (R94, R213). -/
theorem step_idle {s : State} (hm : modeReserved s.cfgMode = false) (h : s.inputs = []) :
    step s = .next (frameBoundary s) := by
  unfold step advance
  simp [hm, h]

/-- What one step can do. -/
inductive Move (s : State) : State → Prop
  /-- nothing pending: the transceiver's step, the block idle. -/
  | idle (h : s.inputs = []) : Move s (frameBoundary s)
  /-- a command word issued. -/
  | command (w : Word) (rest : List Input) (h : s.inputs = .command w :: rest) (t : State)
    (hi : issue w (s.setInputs rest) = .next t) : Move s t
  /-- the transceiver's step. -/
  | boundary (rest : List Input) (h : s.inputs = .frameBoundary :: rest) : Move s (frameBoundary (s.setInputs rest))
  /-- one more copy of the looped frame. -/
  | again (rest : List Input) (h : s.inputs = .frameRepeat :: rest) : Move s (frameRepeat (s.setInputs rest))
  /-- `setThrottle` of the last throttle. -/
  | throttleKept (r : BitVec 16) (rest : List Input) (h : s.inputs = .setThrottle r :: rest)
    (hc : clampThrottle r = s.lastThrottle) : Move s (s.setInputs rest)
  /-- `setThrottle` of another throttle: one `SEND`. -/
  | throttleSent (r : BitVec 16) (rest : List Input) (h : s.inputs = .setThrottle r :: rest)
    (hc : clampThrottle r ≠ s.lastThrottle) (t : State)
    (hi : issue (encode (.send (clampThrottle r))) ((s.setInputs rest).setLastThrottle (clampThrottle r)) = .next t) :
    Move s t
  /-- `getERPM` or `getMotorRPM`: one `DECODE`, and a value returned. -/
  | telemetry (i : Input) (rest : List Input) (h : s.inputs = i :: rest) (hi : i = .getERPM ∨ ∃ m, i = .getMotorRPM m)
    (t : State) (hd : issue (encode .decode) (s.setInputs rest) = .next t) (v : Word) : Move s (t.setHostResult v)
  /-- a reset to a defined grade. -/
  | reset (inp : ResetInputs) (rest : List Input) (h : s.inputs = .reset inp :: rest)
    (hm : modeReserved inp.mode = false) : Move s
      { State.resetWith s.params inp with
        inputs := rest, rxTape := s.rxTape, rxDraws := s.rxDraws, rxChannel := s.rxChannel }

/-- A step that answers a next state starts from a defined grade and is one of those moves. -/
theorem step_move {s t : State} (h : step s = .next t) : modeReserved s.cfgMode = false ∧ Move s t := by
  unfold step advance at h
  split at h
  · cases h
  · rename_i hm
    refine ⟨by simpa using hm, ?_⟩
    split at h
    · cases h; exact .idle ‹_›
    · rename_i i rest hin
      unfold applyInput at h
      split at h
      · exact .command _ rest hin t h
      · cases h; exact .boundary rest hin
      · cases h; exact .again rest hin
      · unfold callSetThrottle at h
        simp only at h
        split at h
        · rename_i hc
          cases h; exact .throttleKept _ rest hin hc
        · rename_i hc
          exact .throttleSent _ rest hin hc t h
      · unfold callGetERPM at h
        obtain ⟨u, hu, hv⟩ := andThen_eq_next.mp h
        cases hv; exact .telemetry _ rest hin (.inl rfl) u hu _
      · unfold callGetMotorRPM callGetERPM at h
        obtain ⟨u, hu, hv⟩ := andThen_eq_next.mp h
        obtain ⟨x, hx, hy⟩ := andThen_eq_next.mp hu
        cases hy; cases hv
        exact .telemetry _ rest hin (.inr ⟨_, rfl⟩) x hx _
      · unfold resetInstance at h
        split at h
        · cases h
        · rename_i hr
          cases h; exact .reset _ rest hin (by simpa using hr)

/-- A property that every part of a step keeps is kept by every step: the parts are taking an input, recording a word,
performing a command, rejecting a word, the transceiver's step, the host's two registers, and reset. -/
theorem step_keeps {P : State → Prop}
    (taken : ∀ s i rest, s.inputs = i :: rest → P s → P (s.setInputs rest))
    (recorded : ∀ s w, P s → P (s.record (.command w)))
    (performed : ∀ s w i t, decode w = .ok i → .command w ∈ s.hist → Effect s i t → P s → P t)
    (rejected : ∀ s w c, decode w = .error c → .command w ∈ s.hist → P s →
      P { s with errIllegal := true, faults := insertFault ⟨c, w⟩ s.faults })
    (boundary : ∀ s, P s → P (frameBoundary s))
    (again : ∀ s, P s → P (frameRepeat s))
    (clamped : ∀ s r, P s → P (s.setLastThrottle (clampThrottle r)))
    (returned : ∀ s v, P s → P (s.setHostResult v))
    (reset : ∀ s inp rest, s.inputs = .reset inp :: rest → modeReserved inp.mode = false → P s →
      P { State.resetWith s.params inp with
        inputs := rest, rxTape := s.rxTape, rxDraws := s.rxDraws, rxChannel := s.rxChannel })
    {s t : State} (h : step s = .next t) (hp : P s) : P t := by
  have issued : ∀ (w : Word) (u v : State), P u → issue w u = .next v → P v := by
    intro w u v hu hi
    rcases issue_cases hi with ⟨i, hd, he⟩ | ⟨c, hd, rfl⟩
    · exact performed _ w i v hd (by simp) (exec_effect he) (recorded u w hu)
    · exact rejected _ w c hd (by simp) (recorded u w hu)
  cases (step_move h).2 with
  | idle => exact boundary s hp
  | command w rest hin _ hi => exact issued w _ _ (taken s _ rest hin hp) hi
  | boundary rest hin => exact boundary _ (taken s _ rest hin hp)
  | again rest hin => exact again _ (taken s _ rest hin hp)
  | throttleKept r rest hin => exact taken s _ rest hin hp
  | throttleSent r rest hin _ _ hi => exact issued _ _ _ (clamped _ r (taken s _ rest hin hp)) hi
  | telemetry i rest hin _ u hd v => exact returned u v (issued _ _ _ (taken s _ rest hin hp) hd)
  | reset inp rest hin hm => exact reset s inp rest hin hm hp

end Sys2Proof.Machine
end

