-- ==== Sys2Proof/Tests/Slice0.lean ====
section
/-! SUPPORT. Slice0.lean: tests of the model against the spec's own words and vectors (95_test_vectors.md), and for each
statement of Obligations.lean with hypotheses a state and operands that meet them. -/

open Sys2Proof Sys2Proof.Machine

namespace Sys2Proof.Tests

/-! ### Helpers -/

/-- Concrete parameters: a pause of one bit, 16-bit durations (9 more than the least), 64 symbols, the default scale. -/
def somePars : Params :=
  { pauseBitsAboveOne := 0, durWAboveLeast := 9, rxCap := 64, erpmScale := 100, busEndian := .little }

/-- A freshly reset machine of a given configuration. -/
def fresh (mode : GradeCode) (bidir rx : Bool) : State :=
  State.resetWith somePars { mode := mode, bidir := bidir, rxPresent := rx, frame := Vector.replicate 17 zeroSymbol }

/-- The next state of an outcome, if there is one. -/
def nextOf : Outcome → Option State
  | .next s => some s
  | .fault _ => none
  | .refused _ => none

/-- The state after a command. -/
def after (i : Instr) (s : State) : State := (nextOf (exec i s)).getD s

/-- A register after a command. -/
def resAfter (i : Instr) (s : State) : Option Word := (nextOf (exec i s)).map State.res

/-- A fresh bidirectional machine at 300 whose next poll is answered as given. -/
def polling (a : Option (List LineSymbol)) : State := { fresh 2 true true with lastErpm := 7, rxTape := [a] }

/-- The symbol (high, `hi`, low, `lo`). -/
def hl (hi lo : Nat) : LineSymbol := { level0 := .high, dur0 := hi, level1 := .low, dur1 := lo }

/-- `F500` of 95_test_vectors.md 2.8: the symbols of `Encode(0x3E9B, Profile(2))`, written out as 2.5 gives them. -/
def f500 : List LineSymbol :=
  [hl 12 20, hl 12 20, hl 24 8, hl 24 8, hl 24 8, hl 24 8, hl 24 8, hl 12 20] ++
  [hl 24 8, hl 12 20, hl 12 20, hl 24 8, hl 24 8, hl 12 20, hl 24 8, hl 24 8]

/-- The frame of `0x0606` at 600 (95_test_vectors.md 2.5). -/
def f606 : Frame := encodeFrame 1 0x0606 ⟨16, 6, 12⟩

/-- The frame of `0x3E9B` at 300. -/
def f500f : Frame := encodeFrame 1 0x3E9B ⟨32, 12, 24⟩

/-- A machine at 600 that has sent throttle 48 once, about to take the transceiver's step. -/
def loaded : State :=
  { fresh 3 false false with
    pkt := 0x0606, res := 0x0606, frame := f606, frameValid := true, txLoaded := true, txfNext := some f606,
    lastThrottle := 48, hist := [.command 0x70000030, .txLoad f606], inputs := [.frameBoundary] }

/-! ### Well-formedness: each check refuses an ill-formed term -/

theorem test_wf_lut_reserved : (Instr.lut 5).wellFormed = false ∧ (Instr.lut 7).wellFormed = false ∧
    (Instr.lut 4).wellFormed = true := by decide
theorem test_wf_csum_data : (AsmLine.csum 4096 0).wellFormed = false ∧ (AsmLine.csum 4095 1).wellFormed = true := by
  decide
theorem test_wf_csum_pol : (AsmLine.csum 0 2).wellFormed = false := by decide
theorem test_wf_verify_packet : (AsmLine.verify 65536 0).wellFormed = false ∧
    (AsmLine.verify 65535 1).wellFormed = true := by decide
theorem test_wf_verify_pol : (AsmLine.verify 0 2).wellFormed = false := by decide
theorem test_wf_assemble : (AsmLine.assemble 2048).wellFormed = false ∧ (AsmLine.assemble 2047).wellFormed = true := by
  decide
theorem test_wf_lut_line : (AsmLine.lut 8).wellFormed = false ∧ (AsmLine.lut 7).wellFormed = true := by decide
theorem test_wf_encode : (AsmLine.encode 65536).wellFormed = false ∧ (AsmLine.encode 65535).wellFormed = true := by
  decide
theorem test_wf_send : (AsmLine.send 2048).wellFormed = false ∧ (AsmLine.send 2047).wellFormed = true := by decide
theorem test_wf_csum_names : (AsmLine.csumStd 4096).wellFormed = false ∧ (AsmLine.csumInv 4096).wellFormed = false := by
  decide
theorem test_wf_verify_names : (AsmLine.verifyStd 65536).wellFormed = false ∧
    (AsmLine.verifyInv 65536).wellFormed = false := by decide
theorem test_wf_load : (AsmLine.load 2048).wellFormed = false := by decide

theorem test_params : somePars.pauseBits = 1 ∧ somePars.durW = 16 := by decide

/-! ### Decoding: words written field by field from R71 to R76 -/

-- R71: OP, 28 reserved bits
theorem test_decode_nop : decode 0b0000_0000000000000000000000000000#32 = .ok .nop := by decide
theorem test_decode_transmit : decode 0b0110_0000000000000000000000000000#32 = .ok .transmit := by decide
theorem test_decode_decode : decode 0b1000_0000000000000000000000000000#32 = .ok .decode := by decide
theorem test_decode_readErpm : decode 0b1001_0000000000000000000000000000#32 = .ok .readErpm := by decide
theorem test_decode_readStatus : decode 0b1010_0000000000000000000000000000#32 = .ok .readStatus := by decide
-- R72: OP, 15 reserved bits, POL, DATA12
theorem test_decode_csum : decode 0b0001_000000000000000_1_000001100000#32 = .ok (.csum 96 true) ∧
    decode 0b0001_000000000000000_0_100000000001#32 = .ok (.csum 0x801 false) := by decide
-- R73: OP, 11 reserved bits, POL, PKT16
theorem test_decode_verify : decode 0b0010_00000000000_1_0011111010011011#32 = .ok (.verify 0x3E9B true) := by decide
-- R74: OP, 17 reserved bits, THR
theorem test_decode_assemble : decode 0b0011_00000000000000000_00000110000#32 = .ok (.assemble 48) := by decide
theorem test_decode_send : decode 0b0111_00000000000000000_11111111111#32 = .ok (.send 2047) := by decide
-- R75: OP, 25 reserved bits, GRADE; a reserved grade decodes and is rejected when it runs
theorem test_decode_lut : decode 0b0100_0000000000000000000000000_011#32 = .ok (.lut 3) ∧
    decode 0b0100_0000000000000000000000000_101#32 = .ok (.lut 5) := by decide
-- R76: OP, 12 reserved bits, PKT16
theorem test_decode_encode : decode 0b0101_000000000000_0000011000000110#32 = .ok (.encode 0x0606) := by decide
-- 95_test_vectors.md 2.10
theorem test_decode_rejects : decode 0x20020000 = .error .illReserved ∧ decode 0x40000008 = .error .illReserved ∧
    decode 0x50010000 = .error .illReserved ∧ decode 0x70000800 = .error .illReserved ∧
    decode 0xA0000001 = .error .illReserved ∧ decode 0xB0000000 = .error .illOpcode ∧
    decode 0xFFFFFFFF = .error .illOpcode := by decide
theorem test_table_word : decodeTableWord 32 0x700001F4 = some (.send 500) ∧ decodeTableWord 32 0xB0000000 = none := by
  decide
theorem test_encode_words : encode (.csum 0x3E8 true) = 0x100013E8 ∧ encode (.verify 0x3E9B false) = 0x20003E9B ∧
    encode (.assemble 2000) = 0x300007D0 ∧ encode (.lut 4) = 0x40000004 := by decide

/-! ### Commands: the vectors of 95_test_vectors.md -/

-- 2.9
theorem test_nop : resAfter .nop { fresh 3 false false with res := 0x606 } = some 0x606 := by decide
-- 2.2
theorem test_csum : resAfter (.csum 0x801 false) (fresh 0 false false) = some 0x9 ∧
    resAfter (.csum 0x801 true) (fresh 0 false false) = some 0x6 := by decide
theorem test_csum_cancel : resAfter (.csum 0x123 false) (fresh 0 true false) = some 0x0 ∧
    resAfter (.csum 0x123 true) (fresh 0 true false) = some 0xF := by decide
-- 2.4
theorem test_verify : resAfter (.verify 0x3E9B true) (fresh 0 false false) = some 1 ∧
    resAfter (.verify 0x3E9B false) (fresh 0 true false) = some 0 := by decide
theorem test_verify_flipped : resAfter (.verify 0x3E9A true) (fresh 0 true false) = some 0 ∧
    resAfter (.verify 0xFFF0 true) (fresh 0 false false) = some 1 := by decide
-- 2.3
theorem test_assemble : (after (.assemble 500) (fresh 0 false false)).pkt = 0x3E85 ∧
    (after (.assemble 500) (fresh 0 true false)).pkt = 0x3E9B := by decide
theorem test_assemble_top : resAfter (.assemble 2047) (fresh 0 false false) = some 0xFFEE ∧
    resAfter (.assemble 47) (fresh 0 true false) = some 0x05F5 := by decide
-- 2.1
theorem test_lut : resAfter (.lut 3) (fresh 1 false false) = some 0x000C0610 ∧
    resAfter (.lut 4) (fresh 1 false false) = some 0x00060308 := by decide
theorem test_lut_reserved : (after (.lut 5) { loaded with res := 9 }).faults = [⟨.illGrade, 0x40000005⟩] ∧
    (after (.lut 5) { loaded with res := 9 }).errIllegal = true ∧
    resAfter (.lut 5) { loaded with res := 9 } = some 9 := by
  decide
-- 2.5: S1 x 11, S0, S1 x 3, S0, pause
theorem test_encode : (after (.encode 0xFFEE) (fresh 4 false false)).frame.toList =
    List.replicate 11 (hl 6 2) ++ [hl 3 5] ++ List.replicate 3 (hl 6 2) ++
      [hl 3 5, { level0 := .low, dur0 := 8, level1 := .low, dur1 := 0 }] := by decide
theorem test_encode_off : (after (.encode 0x0606) (fresh 0 false false)).precondOff = true ∧
    (after (.encode 0x0606) (fresh 0 false false)).errIllegal = false ∧
    (after (.encode 0x0606) (fresh 0 false false)).frame[3] = hl 0 0 := by decide
-- 2.6
theorem test_transmit_no_frame : (after .transmit (fresh 3 false false)).faults = [⟨.illNoFrame, 0x60000000⟩] ∧
    (after .transmit (fresh 3 false false)).txfNext = none := by decide
theorem test_transmit : (after .transmit { loaded with txfNext := none }).txfNext = some loaded.frame ∧
    resAfter .transmit loaded = some 17 := by decide
-- 2.7
theorem test_send : (after (.send 500) (fresh 2 true false)).pkt = 0x3E9B ∧
    (after (.send 500) (fresh 2 true false)).frame.toList.take 16 = f500 := by decide
theorem test_send_hands_over : ((after (.send 48) (fresh 3 false false)).txfNext.map Vector.toList) = some f606.toList ∧
    loadsOf (after (.send 48) (fresh 3 false false)).hist = [f606] := by decide
-- 2.8
theorem test_decode : resAfter .decode (polling (some f500)) = some 50000 ∧
    resAfter .decode (polling (some ((f500.take 15)))) = some 7 ∧ resAfter .decode (polling none) = some 7 := by decide
theorem test_decode_cut : resAfter .decode (polling (some (f500.set 5 { hl 12 20 with level1 := .high }))) = some 7 ∧
    resAfter .decode (polling (some (List.replicate 16 (hl 8 8)))) = some 7 ∧
    decodeBits (f500.set 5 { hl 12 20 with level1 := .high }) = (0x7, 5) ∧
    decodeBits (hl 12 20 :: f500) = (0x1F4D, 16) := by
  decide
theorem test_symbol_bit : symbolBit (hl 32767 32767) = false ∧ symbolBit (hl 32767 32766) = true ∧
    symbolBit (hl 1 0) = true ∧ symbolBit (hl 0 1) = false ∧ symbolBit (hl 0 0) = false := by decide
-- 2.9
theorem test_readErpm : resAfter .readErpm { polling (some f500) with lastErpm := 50000 } = some 50000 ∧
    (after .readErpm (polling (some f500))).rxTape = [some f500] := by decide
theorem test_readStatus : resAfter .readStatus { fresh 3 false false with errIllegal := true } = some 0x31 ∧
    resAfter .readStatus { fresh 2 true true with frameValid := true, txLoaded := true } = some 0x1A6 := by decide

/-! ### The step, the host, the assembler -/

-- the fetch: the placed word is the next one done
theorem test_fetch_word : ((nextOf (step ((fresh 3 false false).withFetchWord 32 0x10000060))).map State.res) = some 6 := by
  decide
-- W2, 2.11
theorem test_clamp : clampThrottle 0 = 48 ∧ clampThrottle 47 = 48 ∧ clampThrottle 48 = 48 ∧ clampThrottle 500 = 500 ∧
    clampThrottle 2047 = 2047 ∧ clampThrottle 2048 = 2047 ∧ clampThrottle 65535 = 2047 := by decide
theorem test_motor_rpm : ((nextOf (step { polling (some f500) with inputs := [.getMotorRPM 14] })).map State.hostResult)
      = some 7142 ∧
    ((nextOf (step { polling (some f500) with inputs := [.getMotorRPM 1] })).map State.hostResult) = some 50000 := by
  decide
-- R58, R224: one more copy of the old frame before the new one; and the looping after the run's end (R94)
theorem test_old_frame_repeats : ((nextOf (step { loaded with txf := some f500f, inputs := [.frameRepeat] })).map
      fun t => (t.txf, t.txfNext, t.line.length)) = some (some f500f, some f606, 34) := by decide
theorem test_looping_after_the_end : ((nextOf (step { loaded with inputs := [] })).map
      fun t => (t.txf, t.txfNext, t.line.length)) = some (some f606, none, 34) ∧
    State.Ended { loaded with inputs := [.frameRepeat, .frameBoundary] } := by decide
-- R13, R60: an answer's durations have 16 bits, and it has 64 symbols at most
theorem test_answer_width : nextAnswer (polling (some (List.replicate 65 (hl 65537 3)))) =
    some (List.replicate 64 (hl 1 3)) := by decide
-- R211: an instance polls on its own channel
theorem test_own_channel : (match stepInstance 1 [fresh 3 false false, loaded] with
    | .next l => l.map State.rxChannel
    | .fault _ => []
    | .refused _ => []) = [0, 1] := by decide
-- R185, R228
theorem test_host_duties : Input.dutiful 0 (.setThrottle 48) = false ∧ Input.dutiful 3 (.setThrottle 48) = true ∧
    Input.dutiful 3 (.command 0xB0000000) = false ∧ Input.dutiful 0 (.command 0x50000606) = false ∧
    Input.dutiful 0 (.command 0x80000000) = true := by decide
-- R85, R86
theorem test_parse : (parseLine "CSUM 96, 1".toList).bind assembleLine = some 0x10001060 ∧
    (parseLine "ENCODE 0x0606 ; a packet".toList).bind assembleLine = some 0x50000606 ∧
    (parseLine "LUT G600".toList).bind assembleLine = some 0x40000003 := by decide
theorem test_parse_refuses : (parseLine "SEND 2048".toList).bind assembleLine = none ∧
    (parseLine "VERIFY.INV 0x3E9B".toList).bind assembleLine = some 0x20013E9B ∧
    parseLine "LOAD 48".toList = some (.load 48) := by decide

/-! ### Witnesses: the hypotheses of each statement can be met -/

theorem witness_OpcodeMapDecodesEveryWord : (0x10001FFF#32 &&& 0xFFFFE000 = 0x10000000) ∧
    (0x2001FFFF#32 &&& 0xFFFE0000 = 0x20000000) ∧ (0x300007FF#32 &&& 0xFFFFF800 = 0x30000000) ∧
    (0x40000007#32 &&& 0xFFFFFFF8 = 0x40000000) ∧ (0x5000FFFF#32 &&& 0xFFFF0000 = 0x50000000) ∧
    (0x700007FF#32 &&& 0xFFFFF800 = 0x70000000) ∧ (∃ r ∈ opRows, 0xA0000000#32 &&& r.mask = r.matchBits) ∧
    (∀ r ∈ opRows, 0xB0000000#32 &&& r.mask ≠ r.matchBits) := by decide
theorem witness_EncodeInvertsDecode : decode 0x700007FF = .ok (.send 2047) := by decide
theorem witness_ReservedOpcodesAreRejected : 0xB ≤ (BitVec.extractLsb' 28 4 0xB0000000#32).toNat ∧
    0xB ≤ (BitVec.extractLsb' 28 4 0xFFFFFFFF#32).toNat := by decide
theorem witness_ReservedBitsAreRejected :
    (BitVec.extractLsb' 28 4 0xA0000001#32 = 0xA ∧ BitVec.extractLsb' 0 28 0xA0000001#32 ≠ 0) ∧
    (BitVec.extractLsb' 28 4 0x08000000#32 = 0x0 ∧ BitVec.extractLsb' 0 28 0x08000000#32 ≠ 0) ∧
    (BitVec.extractLsb' 28 4 0x10002000#32 = 0x1 ∧ BitVec.extractLsb' 13 15 0x10002000#32 ≠ 0) ∧
    (BitVec.extractLsb' 28 4 0x20020000#32 = 0x2 ∧ BitVec.extractLsb' 17 11 0x20020000#32 ≠ 0) ∧
    (BitVec.extractLsb' 28 4 0x70000800#32 = 0x7 ∧ BitVec.extractLsb' 11 17 0x70000800#32 ≠ 0) ∧
    (BitVec.extractLsb' 28 4 0x40000008#32 = 0x4 ∧ BitVec.extractLsb' 3 25 0x40000008#32 ≠ 0) ∧
    (BitVec.extractLsb' 28 4 0x58000000#32 = 0x5 ∧ BitVec.extractLsb' 16 12 0x58000000#32 ≠ 0) := by decide
theorem witness_StepRunsTheDecodedCommand : ∃ (s : State) (w : Word) (i : Instr) (rest : List Input),
    modeReserved s.cfgMode = false ∧ s.inputs = .command w :: rest ∧ decode w = .ok i :=
  ⟨{ loaded with inputs := [.command 0x70000030, .frameBoundary] }, 0x70000030, .send 48, [.frameBoundary], by decide⟩
theorem witness_RejectionIsPrecise_word : ∃ (s : State) (w : Word) (rest : List Input), modeReserved s.cfgMode = false ∧
    s.inputs = .command w :: rest ∧ ∃ c, decode w = .error c :=
  ⟨{ loaded with inputs := [.command 0xB0000000] }, 0xB0000000, [], by decide, rfl, .illOpcode, by decide⟩
theorem witness_RejectionIsPrecise_grade : ∃ (s : State) (w : Word) (rest : List Input), modeReserved s.cfgMode = false ∧
    s.inputs = .command w :: rest ∧ ∃ g : GradeCode, 5 ≤ g.toNat ∧ decode w = .ok (.lut g) :=
  ⟨{ loaded with inputs := [.command 0x40000005] }, 0x40000005, [], by decide, rfl, 5, by decide, by decide⟩
theorem witness_RejectionIsPrecise_noFrame : ∃ (s : State) (w : Word) (rest : List Input),
    modeReserved s.cfgMode = false ∧ s.inputs = .command w :: rest ∧ decode w = .ok .transmit ∧ s.frameValid = false :=
  ⟨{ fresh 3 false false with inputs := [.command 0x60000000] }, 0x60000000, [], by decide, rfl, by decide, by decide⟩
theorem witness_EveryStepCompletes : ∃ s : State, modeReserved s.cfgMode = false ∧ s.inputs ≠ [] ∧
    ∀ inp rest, s.inputs = .reset inp :: rest → modeReserved inp.mode = false := by
  refine ⟨{ loaded with inputs := [.reset ResetInputs.named] }, by decide, by decide, ?_⟩
  intro inp rest h
  cases h
  decide
theorem witness_ReservedModeIsRefused : 5 ≤ (fresh 5 false false).cfgMode.toNat ∧
    5 ≤ (fresh 7 false false).cfgMode.toNat ∧
    ∃ (s : State) (inp : ResetInputs) (rest : List Input), s.inputs = .reset inp :: rest ∧ 5 ≤ inp.mode.toNat :=
  ⟨by decide, by decide, { loaded with inputs := [.reset { ResetInputs.named with mode := 5 }] },
    { ResetInputs.named with mode := 5 }, [], rfl, by decide⟩
theorem witness_NopHasNoEffect : BitVec.extractLsb' 28 4 0x00000001#32 = 0x0 ∧ 0x00000001#32 ≠ 0x00000000 := by decide
theorem witness_LutReturnsTheTimingTable : 5 ≤ (5#3).toNat ∧ 5 ≤ (7#3).toNat := by decide
theorem witness_TimingTableIsOrdered : profile 0 = some ⟨0, 0, 0⟩ ∧ profile 1 = some ⟨64, 24, 48⟩ ∧
    profile 4 = some ⟨8, 3, 6⟩ := by decide
theorem witness_PolaritiesNeverAgree : verifyPacket 0x0606 false = true ∧ verifyPacket 0x3E9B true = true := by decide
theorem witness_EncodeBuildsTheFrame : modeReserved (fresh 0 false false).cfgMode = false ∧
    modeReserved (fresh 4 false false).cfgMode = false := by decide
theorem witness_OffFramesHaveNoDuration : (fresh 0 true true).cfgMode = 0 := by decide
theorem witness_TransmissionHasTheGradeTiming : (1#3 ≠ 0 ∧ profile 1 = some ⟨64, 24, 48⟩) ∧
    (4#3 ≠ 0 ∧ profile 4 = some ⟨8, 3, 6⟩) := by decide
theorem witness_TransmitHandsOverTheFrame : loaded.frameValid = true ∧ (fresh 3 false false).frameValid = false := by
  decide
theorem witness_SendAssemblesEncodesAndHandsOver : modeReserved (fresh 2 true false).cfgMode = false := by decide
theorem witness_LoadEndsAsSend : modeReserved loaded.cfgMode = false := by decide
theorem witness_SymbolBitIsTheLongerHalf : (hl 8 8).dur0 = (hl 8 8).dur1 ∧ (hl 0 0).dur0 = (hl 0 0).dur1 := by decide
theorem witness_DecoderReadsMostSignificantFirst : 16 ≤ f500.length ∧
    ∀ y ∈ f500.take 16, y.level0 = .high ∧ y.level1 = .low := by decide
theorem witness_DecoderStopsAtWrongPolarity : f500.length ≤ 16 ∧ (∀ x ∈ f500, x.level0 = .high ∧ x.level1 = .low) ∧
    ¬(zeroSymbol.level0 = .high ∧ zeroSymbol.level1 = .low) := by decide
theorem witness_ShortFramesFail : (f500.take 15).length < 16 ∧
    (∃ y ∈ (f500.set 15 zeroSymbol).take 16, ¬(y.level0 = .high ∧ y.level1 = .low)) ∧
    ∃ y ∈ (f500.set 0 zeroSymbol).take 16, ¬(y.level0 = .high ∧ y.level1 = .low) := by decide
theorem witness_DecodeSucceedsExactlyOnValidFrames : decodeFrame 100 f500 = some 50000 ∧
    decodeBits f500 = (0x3E9B, 16) := by decide
theorem witness_StandardChecksumNeverDecodes :
    decodeBits (encodeFrame 1 0x3E85 ⟨16, 6, 12⟩).toList = (0x3E85, 16) ∧
    BitVec.extractLsb' 0 4 0x3E85#16 = checksum (BitVec.extractLsb' 4 12 0x3E85#16) false := by decide
theorem witness_EncodedTelemetryDecodes : (4#3 ≠ 0 ∧ profile 4 = some ⟨8, 3, 6⟩) ∧ 48 ≤ (48#11).toNat ∧
    48 ≤ (2047#11).toNat ∧ (47#11).toNat < 48 := by decide
theorem witness_SingleBitErrorsAreRejected : (verifyPacket 0x3E9B true = true ∧
      BitVec.extractLsb' 4 12 0x3E9A#16 = BitVec.extractLsb' 4 12 0x3E9B#16 ∧ 0x3E9A#16 ≠ 0x3E9B) ∧
    decodeBits f500 = (0x3E9B, 16) ∧ decodeFrame 100 f500 ≠ none ∧
    decodeBits (f500.set 15 (hl 12 20)) = (0x3E9B#16 ^^^ BitVec.twoPow 16 0, 16) ∧
    decodeBits (f500.set 0 (hl 24 8)) = (0x3E9B#16 ^^^ BitVec.twoPow 16 15, 16) := by decide
theorem witness_DecodeWithoutReceiverDoesNotPoll : (fresh 2 false true).cfgBidir = false ∧
    (fresh 2 true false).cfgRxPresent = false := by decide
theorem witness_DecodePollsOnce : (polling (some f500)).cfgBidir = true ∧ (polling none).cfgRxPresent = true ∧
    (polling (some f500)).rxTape = [some f500] ∧ AnswerBounded (polling (some f500)).params (some f500) ∧
    (fresh 2 true true).rxTape = [] ∧ (fresh 2 true true).cfgBidir = true ∧ (fresh 2 true true).cfgRxPresent = true :=
  ⟨by decide, by decide, by decide, ⟨by decide, by decide⟩, by decide, by decide, by decide⟩
theorem witness_DecodeFailuresLookAlike : (polling none).cfgBidir = true ∧ (polling none).cfgRxPresent = true ∧
    (nextAnswer (polling none)).bind (decodeFrame 100) = none ∧
    (nextAnswer (polling (some (f500.take 15)))).bind (decodeFrame 100) = none ∧
    (nextAnswer (polling (some (f500.set 15 (hl 12 20))))).bind (decodeFrame 100) = none := by decide
theorem witness_FrameBoundaryCarriesOneWholeFrame : modeReserved loaded.cfgMode = false ∧
    (loaded.inputs = [.frameBoundary] ∧ loaded.txfNext = some f606) ∧
    ({ loaded with inputs := [] }.inputs = [] ∧ { loaded with txfNext := none, txf := some f606 }.txfNext = none ∧
      { loaded with txfNext := none, txf := some f606 }.txf = some f606) ∧
    ((fresh 3 false false).inputs = [] ∧ (fresh 3 false false).txfNext = none ∧ (fresh 3 false false).txf = none) ∧
    ({ loaded with txf := some f606, inputs := [.frameRepeat] }.inputs = [.frameRepeat] ∧
      { loaded with txf := some f606, inputs := [.frameRepeat] }.txf = some f606) ∧
    { loaded with inputs := [.frameRepeat] }.txf = none := by decide

theorem witness_OnlyHandOverChangesTheTransceiver :
    (∃ t, step { fresh 3 false false with inputs := [.setThrottle 48] } = .next t ∧ t.txfNext ≠ none) ∧
    (∃ t, step loaded = .next t ∧ t.txf ≠ loaded.txf) ∧
    (∃ t, step { loaded with inputs := [] } = .next t ∧ t.txf ≠ loaded.txf) ∧
    ∃ t, step { loaded with txf := some f606, inputs := [.frameRepeat] } = .next t ∧ t.line ≠ loaded.line :=
  ⟨⟨_, rfl, by decide⟩, ⟨_, rfl, by decide⟩, ⟨_, rfl, by decide⟩, ⟨_, rfl, by decide⟩⟩
theorem witness_SetThrottleSendsOnChangeOnly : modeReserved loaded.cfgMode = false ∧
    { loaded with inputs := [.setThrottle 47] }.inputs = [.setThrottle 47] ∧ (48 : Throttle) = loaded.lastThrottle ∧
    (2047 : Throttle) ≠ loaded.lastThrottle := by decide
theorem witness_SetThrottleIsIdempotent : modeReserved loaded.cfgMode = false ∧
    { loaded with inputs := [.setThrottle 500, .setThrottle 500] }.inputs =
      .setThrottle 500 :: .setThrottle 500 :: [] := by
  decide
theorem witness_TelemetryCallsReturnDecodedValue : modeReserved (polling none).cfgMode = false ∧
    { polling none with inputs := [.getERPM] }.inputs = [.getERPM] ∧
    { polling none with inputs := [.getMotorRPM 255] }.inputs = [.getMotorRPM 255] := by decide
theorem witness_HostOnlyUseKeepsThePacketInStep : ∃ t, State.HostInStep { loaded with inputs := [.setThrottle 500] } ∧
    (∀ i rest, { loaded with inputs := [.setThrottle 500] }.inputs = i :: rest → i.hostOnly = true) ∧
    step { loaded with inputs := [.setThrottle 500] } = .next t := by
  refine ⟨_, .inr (by decide), ?_, rfl⟩
  intro i rest h
  cases h
  rfl
theorem witness_SetThrottleLeavesItsPacket : modeReserved loaded.cfgMode = false ∧ loaded.pkt =
    assemblePacket loaded.lastThrottle loaded.cfgBidir ∧
    { loaded with inputs := [.setThrottle 48] }.inputs = [.setThrottle 48] := by decide
theorem witness_ResetLeavesTheStatedValues : fresh 3 true false = State.resetWith somePars
    { mode := 3, bidir := true, rxPresent := false, frame := Vector.replicate 17 zeroSymbol } := rfl
theorem witness_ResetReplacesTheInstance : modeReserved loaded.cfgMode = false ∧
    modeReserved ({ ResetInputs.named with mode := 4 }).mode = false ∧
    { loaded with inputs := [.reset { ResetInputs.named with mode := 4 }] }.inputs =
      [.reset { ResetInputs.named with mode := 4 }] := by decide
theorem witness_ResetMeetsTheInvariants : modeReserved (0 : GradeCode) = false ∧ modeReserved (4 : GradeCode) = false := by
  decide
theorem witness_ConfigurationIsImmutable : ∃ t, step { loaded with inputs := [.command 0] } = .next t ∧
    loaded.ConfigLegal ∧
    ∀ i rest, { loaded with inputs := [.command 0] }.inputs = i :: rest → i.isReset = false := by
  refine ⟨_, rfl, by decide, ?_⟩
  intro i rest h
  cases h
  rfl
theorem witness_OnlyResetClears : ∃ t, step { loaded with errIllegal := true, inputs := [.command 0x80000000] } = .next t ∧
    ∀ i rest, { loaded with errIllegal := true, inputs := [.command 0x80000000] }.inputs = i :: rest →
    i.isReset = false := by
  refine ⟨_, rfl, ?_⟩
  intro i rest h
  cases h
  rfl
theorem witness_StepsRecordOneCommandAtMost : ∃ t, step { polling none with inputs := [.getERPM] } = .next t ∧
    ∀ i rest, { polling none with inputs := [.getERPM] }.inputs = i :: rest → i.isReset = false := by
  refine ⟨_, rfl, ?_⟩
  intro i rest h
  cases h
  rfl
theorem witness_StepKeepsTheTransmitPathSound : loaded.FramesEncoded ∧ loaded.TransmitterSound ∧ loaded.LineWhole ∧
    ∃ t, step loaded = .next t := by
  refine ⟨⟨fun _ => ⟨0x0606, ⟨16, 6, 12⟩, by decide, rfl⟩, fun f hf => ?_⟩, ⟨by decide, by decide, by decide, ?_⟩,
    ⟨[], rfl, by simp⟩, _, rfl⟩
  · have : f = f606 := by simpa [loaded, loadsOf] using hf
    exact this ▸ ⟨0x0606, ⟨16, 6, 12⟩, by decide, rfl⟩
  · intro f hf
    cases hf
theorem witness_StepKeepsTheFaultRecordSound : ∃ s t, s.FaultsSound ∧ s.faults ≠ [] ∧ step s = .next t := by
  refine ⟨{ fresh 3 false false with
    errIllegal := true, faults := [⟨.illGrade, 0x40000005⟩], hist := [.command 0x40000005] }, _, ⟨by decide, by decide, ?_⟩,
    by decide, rfl⟩
  intro r hr
  have : r = ⟨.illGrade, 0x40000005⟩ := by simpa using hr
  subst this
  exact ⟨⟨5, by decide, by decide⟩, by decide⟩
theorem witness_StepKeepsDurationsInWidth : loaded.DurationsFit ∧ ∃ t, step loaded = .next t := by
  refine ⟨⟨by decide, ?_, ?_, by decide, ?_⟩, _, rfl⟩
  · intro f h
    cases h
  · intro f h
    cases h
    decide
  · intro a h
    simp [loaded] at h
theorem witness_StepKeepsTheRegistersMeaningful : loaded.TelemetrySound ∧ loaded.PacketSound ∧ loaded.OffMarkSound ∧
    loaded.HostSound ∧ ∃ t, step loaded = .next t :=
  ⟨.inl rfl, .inr ⟨48, by decide⟩, rfl, .inr (by decide), _, rfl⟩
theorem witness_ModelMarksAreNeverRead :
    (∃ t, step { loaded with inputs := [.command 0xB0000000] } = .next t) ∧
    step (fresh 5 false false) = .refused .reservedMode := ⟨⟨_, rfl⟩, rfl⟩
theorem witness_UnwrittenFrameIsNeverRead : (fresh 3 false false).frameValid = false ∧
    (∃ t, step { fresh 3 false false with inputs := [.command 0x60000000] } = .next t ∧ t.frameValid = false) ∧
    ∃ t, step { fresh 3 false false with inputs := [.command 0x50000606] } = .next t ∧ t.frameValid = true :=
  ⟨by decide, ⟨_, rfl, by decide⟩, ⟨_, rfl, by decide⟩⟩
theorem witness_InstancesAreIndependent : ∃ fleet',
    stepInstance 1 [fresh 3 false false, { loaded with inputs := [.frameBoundary] }] = .next fleet' := ⟨_, rfl⟩
theorem witness_BusBytesAssembleToTheWord : 3 < 4 ∧ 7 < 8 ∧ busByte .little 0x70000030 0 = 0x30 ∧
    busByte .big 0x70000030 0 = 0x70 := by decide
theorem witness_AssemblerNeverTruncates : (4095 < 4096 ∧ 1 < 2 ∧ assembleLine (.csum 4095 1) = some 0x10001FFF) ∧
    (4096 ≤ 4096 ∧ 2 ≤ 2 ∧ assembleLine (.csum 0 2) = none) ∧
    (65535 < 65536 ∧ assembleLine (.encode 65535) = some 0x5000FFFF) ∧
    (65536 ≤ 65536 ∧ assembleLine (.verify 65536 0) = none) ∧
    (2047 < 2048 ∧ assembleLine (.assemble 2047) = some 0x300007FF) ∧
    (2048 ≤ 2048 ∧ assembleLine (.send 2048) = none) ∧ (7 < 8 ∧ assembleLine (.lut 7) = some 0x40000007) ∧
    (8 ≤ 8 ∧ assembleLine (.lut 8) = none) := by decide

end Sys2Proof.Tests
end

