-- ==== Sys2Proof/Proofs/OpcodeMap.lean ====
section
/-! PROOFS. OpcodeMap.lean: the opcode map as a partition of the words. The opcode field of a word is the number of the
only row that may select it (R78), so a reserved opcode (R79) and a set bit of a row's reserved field (R80) each leave
no row. Settles O2, O5 and O6. -/

namespace Sys2Proof

open Sys2Proof.Machine

/-- Selection as the equation of R78. -/
theorem OpRow.selects_iff {r : OpRow} {w : Word} : r.selects w = true ↔ w &&& r.mask = r.matchBits := beq_iff_eq

/-- The number of the row that selects a word is the word's opcode (R78). -/
theorem opField_toNat_of_selects {k : Nat} (hk : k < 11) {w : Word} (h : (opRows[k]'hk).selects w = true) :
    (opField w).toNat = k := by
  rw [opField_of_selects _ (List.getElem_mem hk) w h, opRows_opcode k hk, BitVec.toNat_ofNat]
  omega

/-- Only one row selects a word (R78). -/
theorem opRow_unique {r₁ r₂ : OpRow} (h₁ : r₁ ∈ opRows) (h₂ : r₂ ∈ opRows) {w : Word} (hs₁ : r₁.selects w = true)
    (hs₂ : r₂.selects w = true) : r₁ = r₂ := by
  obtain ⟨j, hj, rfl⟩ := List.getElem_of_mem h₁
  obtain ⟨k, hk, rfl⟩ := List.getElem_of_mem h₂
  have hjk : j = k := (opField_toNat_of_selects hj hs₁).symm.trans (opField_toNat_of_selects hk hs₂)
  subst hjk
  rfl

/-- A word that the row of its opcode does not select is rejected: no other row could select it (R84). -/
theorem decode_eq_error {w : Word}
    (h : ∀ k (hk : k < 11), (opField w).toNat = k → (opRows[k]'hk).selects w = false) :
    decode w = .error (illegalCause w) := by
  refine (decode_error_iff w _).mpr ⟨fun r hr => ?_, rfl⟩
  obtain ⟨k, hk, rfl⟩ := List.getElem_of_mem hr
  exact Bool.eq_false_iff.mpr fun hs => Bool.eq_false_iff.mp (h k hk (opField_toNat_of_selects hk hs)) hs

/-- A word with a reserved opcode is illegal for its opcode (R79). -/
theorem decode_of_reserved_opcode {w : Word} (h : 0xB ≤ (opField w).toNat) : decode w = .error .illOpcode := by
  have hd : decode w = .error (illegalCause w) := decode_eq_error fun k hk hop => by omega
  rwa [illegalCause, if_pos h] at hd

/-- A row whose mask covers a field that its match leaves 0 selects no word with a 1 in that field (R78, R80). -/
theorem OpRow.selects_eq_false_of_field {r : OpRow} {w : Word} {lo n : Nat}
    (hr : r.mask.extractLsb' lo n = BitVec.allOnes n ∧ r.matchBits.extractLsb' lo n = 0)
    (hw : w.extractLsb' lo n ≠ 0) : r.selects w = false := by
  obtain ⟨hmask, hmatch⟩ := hr
  refine Bool.eq_false_iff.mpr fun hs => hw ?_
  calc w.extractLsb' lo n
      = (w &&& r.mask).extractLsb' lo n := by rw [BitVec.extractLsb'_and, hmask, BitVec.and_allOnes]
    _ = 0 := by rw [OpRow.selects_iff.mp hs, hmatch]

/-- A word of a defined opcode with a 1 in a reserved field of its row is illegal for its reserved bits (R80). -/
theorem decode_of_reserved_field (k : Nat) (hk : k < 11) {w : Word} {lo n : Nat}
    (hr : (opRows[k]'hk).mask.extractLsb' lo n = BitVec.allOnes n ∧ (opRows[k]'hk).matchBits.extractLsb' lo n = 0)
    (hop : w.extractLsb' 28 4 = BitVec.ofNat 4 k) (hw : w.extractLsb' lo n ≠ 0) : decode w = .error .illReserved := by
  have hnum : (opField w).toNat = k := by
    rw [opField, hop, BitVec.toNat_ofNat]
    omega
  have hd : decode w = .error (illegalCause w) := decode_eq_error fun j hj hop' => by
    have hjk : j = k := hop'.symm.trans hnum
    subst hjk
    exact OpRow.selects_eq_false_of_field hr hw
  rwa [illegalCause, if_neg (by omega)] at hd

/-- Issuing a word that does not decode records it, sets `ERR_ILLEGAL` and leaves everything else (R92). -/
theorem Machine.issue_of_decode_error {w : Word} {c : IllegalCause} (h : decode w = .error c) (s : State) :
    issue w s = .next { s with
      hist := s.hist ++ [.command w]
      errIllegal := true
      faults := insertFault { cause := c, word := w } s.faults } := by
  unfold issue
  rw [h]
  rfl

/-- Settles O2: the row that selects a word gives its command, its opcode names the row, and no row means an error. -/
theorem opcodeMapDecodesEveryWord : Obligations.OpcodeMapDecodesEveryWord := by
  unfold Obligations.OpcodeMapDecodesEveryWord
  have row (k : Nat) (hk : k < 11) (w : Word) (h : w &&& (opRows[k]'hk).mask = (opRows[k]'hk).matchBits) :
      decode w = .ok ((opRows[k]'hk).build w) := decode_of_row k hk w (OpRow.selects_iff.mpr h)
  refine ⟨fun w => ⟨row 0 (by decide) w, row 1 (by decide) w, row 2 (by decide) w, row 3 (by decide) w,
    row 4 (by decide) w, row 5 (by decide) w, row 6 (by decide) w, row 7 (by decide) w, row 8 (by decide) w,
    row 9 (by decide) w, row 10 (by decide) w⟩, fun w r₁ r₂ h₁ h₂ hs₁ hs₂ => ?_, fun w h => ?_⟩
  · have hrow : r₁ = r₂ := opRow_unique h₁ h₂ (OpRow.selects_iff.mpr hs₁) (OpRow.selects_iff.mpr hs₂)
    exact ⟨congrArg OpRow.matchBits hrow, congrArg OpRow.mask hrow⟩
  · exact ⟨illegalCause w, decode_eq_error fun k hk _ =>
      Bool.eq_false_iff.mpr fun hs => h _ (List.getElem_mem hk) (OpRow.selects_iff.mp hs)⟩

/-- Settles O5: no row has a reserved opcode, so the word is rejected for it. -/
theorem reservedOpcodesAreRejected : Obligations.ReservedOpcodesAreRejected := by
  unfold Obligations.ReservedOpcodesAreRejected
  exact fun w s h => issue_of_decode_error (decode_of_reserved_opcode h) s

/-- Settles O6: the row of each opcode masks the whole reserved field of its format, so a 1 in it leaves no row. -/
theorem reservedBitsAreRejected : Obligations.ReservedBitsAreRejected := by
  unfold Obligations.ReservedBitsAreRejected
  refine ⟨fun w s h => issue_of_decode_error ?_ s, by decide, by decide, by decide⟩
  rcases h with ⟨hop | hop | hop | hop | hop, hw⟩ | ⟨hop, hw⟩ | ⟨hop, hw⟩ | ⟨hop | hop, hw⟩ | ⟨hop, hw⟩ | ⟨hop, hw⟩
  · exact decode_of_reserved_field 0x0 (by decide) (by decide) hop hw
  · exact decode_of_reserved_field 0x6 (by decide) (by decide) hop hw
  · exact decode_of_reserved_field 0x8 (by decide) (by decide) hop hw
  · exact decode_of_reserved_field 0x9 (by decide) (by decide) hop hw
  · exact decode_of_reserved_field 0xA (by decide) (by decide) hop hw
  · exact decode_of_reserved_field 0x1 (by decide) (by decide) hop hw
  · exact decode_of_reserved_field 0x2 (by decide) (by decide) hop hw
  · exact decode_of_reserved_field 0x3 (by decide) (by decide) hop hw
  · exact decode_of_reserved_field 0x7 (by decide) (by decide) hop hw
  · exact decode_of_reserved_field 0x4 (by decide) (by decide) hop hw
  · exact decode_of_reserved_field 0x5 (by decide) (by decide) hop hw

end Sys2Proof
end

