-- ==== Sys2Proof/Proofs/Control.lean ====
section
/-! PROOFS. Control.lean: the control commands `NOP` (R91) and `READ_STATUS` (R93), and the bits of the status view
(R29). Settles O11 and O12. -/

namespace Sys2Proof

open Sys2Proof.Machine

/-- `NOP` in one equation (R91). -/
theorem Machine.exec_nop (s : State) : exec .nop s = .next s := rfl

/-- `READ_STATUS` in one equation (R93). -/
theorem Machine.exec_readStatus (s : State) : exec .readStatus s = .next { s with res := s.status } := rfl

/-- Issuing the word 0 performs `NOP`: only the record of the word remains (R90, R91). -/
theorem Machine.issue_zero (s : State) :
    issue 0x00000000 s = .next { s with hist := s.hist ++ [.command 0x00000000] } :=
  calc issue 0x00000000 s
      = exec .nop (s.record (.command 0x00000000)) := issue_encode .nop s (by decide)
    _ = .next { s with hist := s.hist ++ [.command 0x00000000] } := exec_nop _

/-- The row of `NOP` masks the whole word, so a word of its opcode with any bit set is rejected (R80, R91). -/
theorem decode_of_nop_opcode {w : Word} (hop : w.extractLsb' 28 4 = 0x0) (hw : w ≠ 0x00000000) :
    decode w = .error .illReserved :=
  decode_of_reserved_field 0x0 (lo := 0) (n := 32) (by decide) (by decide) hop
    (by rwa [BitVec.extractLsb'_eq_self])

/-- The row of `READ_STATUS` fixes every bit of the word (R78). -/
theorem opRow_of_build_readStatus {r : OpRow} (hr : r ∈ opRows) {w : Word} (h : r.build w = .readStatus) :
    r.mask = BitVec.allOnes 32 ∧ r.matchBits = 0xA0000000 := by
  simp only [opRows, List.mem_cons, List.not_mem_nil, or_false] at hr
  rcases hr with rfl | rfl | rfl | rfl | rfl | rfl | rfl | rfl | rfl | rfl | rfl
  all_goals cases h  -- every other row builds another command
  exact ⟨by decide, rfl⟩

/-- `READ_STATUS` has one word (R78, R93). -/
theorem decode_eq_readStatus_iff (w : Word) : decode w = .ok .readStatus ↔ w = 0xA0000000 := by
  constructor
  · intro h
    obtain ⟨k, hk, hs, hb⟩ := row_of_decode w _ h
    obtain ⟨hmask, hmatch⟩ := opRow_of_build_readStatus (List.getElem_mem hk) hb.symm
    rw [OpRow.selects_iff, hmask, hmatch, BitVec.and_allOnes] at hs
    exact hs
  · rintro rfl
    decide

/-- A flag at its place shows in that bit alone. -/
theorem Machine.getLsbD_place_ofBool (b : Bool) {lo : Nat} (hlo : lo < 32) (i : Nat) :
    (place (BitVec.ofBool b) lo).getLsbD i = (decide (i = lo) && b) := by
  have hpos : (lo ≤ i ∧ i < 32) ∧ i - lo = 0 ↔ i = lo := by omega
  rw [getLsbD_place, BitVec.getLsbD_ofBool, ← Bool.and_assoc, ← Bool.decide_and, ← Bool.decide_and,
    decide_eq_decide.mpr hpos]

/-- Each bit of the status view: the five flags at their bits, `CFG_MODE` from bit 4 up, and 0 elsewhere (R29). -/
theorem Machine.State.getLsbD_status (s : State) {i : Nat} (hi : i < 32) : s.status.getLsbD i =
    (decide (i = 8) && s.cfgRxPresent || decide (i = 7) && s.cfgBidir || decide (4 ≤ i) && s.cfgMode.getLsbD (i - 4) ||
      decide (i = 2) && s.txLoaded || decide (i = 1) && s.frameValid || decide (i = 0) && s.errIllegal) := by
  simp only [State.status, BitVec.getLsbD_or]
  rw [getLsbD_place_ofBool _ (by decide), getLsbD_place_ofBool _ (by decide), getLsbD_place_ofBool _ (by decide),
    getLsbD_place_ofBool _ (by decide), getLsbD_place_ofBool _ (by decide), getLsbD_place]
  simp only [hi, decide_true, Bool.and_true]

/-- `STATUS[6:4]` is `CFG_MODE` (R20, R29). -/
theorem Machine.State.extractLsb'_status_cfgMode (s : State) : s.status.extractLsb' 4 3 = s.cfgMode := by
  refine BitVec.eq_of_getLsbD_eq fun i hi => ?_
  rw [BitVec.getLsbD_extractLsb', s.getLsbD_status (by omega)]
  have hbits : 4 + i ≠ 8 ∧ 4 + i ≠ 7 ∧ 4 + i ≠ 2 ∧ 4 + i ≠ 1 ∧ 4 + i ≠ 0 := by omega
  simp [hi, hbits]

/-- `STATUS[31:9]` reads 0 (R29). -/
theorem Machine.State.extractLsb'_status_high (s : State) : s.status.extractLsb' 9 23 = 0 := by
  refine BitVec.eq_of_getLsbD_eq fun i hi => ?_
  rw [BitVec.getLsbD_extractLsb', s.getLsbD_status (by omega)]
  have hmode : s.cfgMode.getLsbD (9 + i - 4) = false := BitVec.getLsbD_of_ge _ _ (by omega)
  have hbits : 9 + i ≠ 8 ∧ 9 + i ≠ 7 ∧ 9 + i ≠ 2 ∧ 9 + i ≠ 1 ∧ 9 + i ≠ 0 := by omega
  simp [hmode, hbits]

/-- Settles O11: `NOP` hands its state on, and its row leaves no bit of the word free. -/
theorem nopHasNoEffect : Obligations.NopHasNoEffect := by
  unfold Obligations.NopHasNoEffect
  exact ⟨exec_nop, issue_zero, fun w => decode_of_nop_opcode⟩

/-- Settles O12: the word by the row of `READ_STATUS`, the value by the bits of the status view. -/
theorem readStatusShowsFlagsAndConfiguration : Obligations.ReadStatusShowsFlagsAndConfiguration := by
  unfold Obligations.ReadStatusShowsFlagsAndConfiguration
  refine ⟨decode_eq_readStatus_iff, fun s => ⟨s.status, exec_readStatus s, ?_, ?_, ?_, ?_,
    s.extractLsb'_status_cfgMode, ?_, ?_, s.extractLsb'_status_high⟩⟩
  all_goals
    rw [s.getLsbD_status (by decide)]
    simp

end Sys2Proof
end

