-- ==== Sys2Proof/Proofs/TimingTable.lean ====
section
/-! PROOFS. TimingTable.lean: the timing table (R100), its order and its ratios (R106), and `LUT`, which reads one row
of it (R104). Settles O13 and O14. -/

namespace Sys2Proof

open Sys2Proof.Machine

/-- The word of `LUT` is its opcode with the grade in the low bits (R75). -/
theorem encode_lut (g : GradeCode) : encode (.lut g) = 0x40000000 ||| g.setWidth 32 := by
  simp [encode, place]

/-- A word whose row rebuilds its command decodes to that command (R78, R84). -/
theorem decode_of_encodesItsRow {i : Instr} (h : Laws.EncodesItsRow.Statement i) : decode (encode i) = .ok i := by
  obtain ⟨k, hk, hselects, hbuild⟩ := h
  rw [decode_of_row k hk _ hselects, hbuild]

/-- A reserved grade has no row (R100). -/
theorem Machine.profile_of_reserved {g : GradeCode} (h : 5 ≤ g.toNat) : profile g = none := by
  rw [← Option.isNone_iff_eq_none, ← Option.not_isSome, profile_isSome, modeReserved, decide_eq_true h]
  rfl

/-- `LUT` of a grade with a row, in one equation (R104). -/
theorem Machine.exec_lut {g : GradeCode} {t : TimingProfile} (h : profile g = some t) (s : State) :
    exec (.lut g) s = .next { s with res := t.packed } := by
  simp only [exec, execLut, h, State.setRes]

/-- `LUT` of a reserved grade, in one equation (R92, R104). -/
theorem Machine.exec_lut_reserved {g : GradeCode} (h : 5 ≤ g.toNat) (s : State) :
    exec (.lut g) s = .next { s with
      errIllegal := true
      faults := insertFault { cause := .illGrade, word := encode (.lut g) } s.faults } := by
  simp only [exec, execLut, profile_of_reserved h, raiseIllegal]

/-- What R100 and R106 say of a row: the high times are ordered within the bit period and fit their widths. -/
theorem Machine.profile_ordered {g : GradeCode} {t : TimingProfile} (h : profile g = some t) :
    t.hi0 ≤ t.hi1 ∧ t.hi1 ≤ t.tpb ∧ t.tpb < 2 ^ 7 ∧ t.hi0 < 2 ^ 6 ∧ t.hi1 < 2 ^ 6 := by
  rcases profile_cases h with ⟨-, rfl⟩ | ⟨-, rfl⟩ | ⟨-, rfl⟩ | ⟨-, rfl⟩ | ⟨-, rfl⟩ <;> decide

/-- Off OFF, the high time of a 0 is 3/8 of a bit period that is not 0, and that of a 1 is twice it (R106). -/
theorem Machine.profile_ratio {g : GradeCode} {t : TimingProfile} (h : profile g = some t) (hg : g ≠ 0) :
    0 < t.tpb ∧ 8 * t.hi0 = 3 * t.tpb ∧ t.hi1 = 2 * t.hi0 := by
  rcases profile_cases h with ⟨rfl, -⟩ | ⟨-, rfl⟩ | ⟨-, rfl⟩ | ⟨-, rfl⟩ | ⟨-, rfl⟩
  · exact absurd rfl hg
  all_goals decide

/-- Settles O13: the word by the row of `LUT`, each value by packing the grade's row of the table. -/
theorem lutReturnsTheTimingTable : Obligations.LutReturnsTheTimingTable := by
  unfold Obligations.LutReturnsTheTimingTable
  refine ⟨fun g => ?_, fun s => ⟨exec_lut (t := ⟨0, 0, 0⟩) rfl s, exec_lut (t := ⟨64, 24, 48⟩) rfl s,
    exec_lut (t := ⟨32, 12, 24⟩) rfl s, exec_lut (t := ⟨16, 6, 12⟩) rfl s, exec_lut (t := ⟨8, 3, 6⟩) rfl s,
    fun g hg => ?_⟩⟩
  · rw [← encode_lut]
    exact decode_of_encodesItsRow (Laws.EncodesItsRow.lut g)
  · rw [← encode_lut]
    exact exec_lut_reserved hg s

/-- Settles O14: the rows as the table gives them; off OFF the ratios of R106 give the other bounds. -/
theorem timingTableIsOrdered : Obligations.TimingTableIsOrdered := by
  unfold Obligations.TimingTableIsOrdered
  refine ⟨⟨rfl, rfl, rfl, rfl, rfl, fun g => profile_of_reserved⟩, fun g t h => ?_⟩
  obtain ⟨h01, h1, htpb, hw0, hw1⟩ := profile_ordered h
  refine ⟨h01, h1, htpb, hw0, hw1, fun hg => ?_⟩
  obtain ⟨hpos, h38, h2⟩ := profile_ratio h hg
  omega

end Sys2Proof
end

