-- ==== Sys2Proof/Proofs/PacketAssembler.lean ====
section
/-! PROOFS. PacketAssembler.lean: the two polarities of the checksum (R121, R122), `CSUM` and `VERIFY` (R128 to R130),
and the fields of an assembled packet (R132). Settles O15 to O18. -/

namespace Sys2Proof

open Sys2Proof.Machine

/-- A field of a field is the field of the whole word at the two offsets together. -/
theorem extractLsb'_extractLsb'_add {w : Nat} (x : BitVec w) {lo n start len : Nat} (h : start + len ≤ n) :
    (x.extractLsb' lo n).extractLsb' start len = x.extractLsb' (lo + start) len := by
  refine BitVec.eq_of_getLsbD_eq fun i hi => ?_
  simp [show start + i < n by omega, Nat.add_assoc]

/-- The two checksums of the same data differ in every bit (R122). -/
theorem Machine.checksum_true (d : Data12) : checksum d true = checksum d false ^^^ 0xF#4 := by
  simp [checksum_eq_fold]

/-- Bit by bit, the inverted checksum is the complement of the standard one (R122). -/
theorem Machine.getLsbD_checksum_true (d : Data12) {i : Nat} (hi : i < 4) :
    (checksum d true).getLsbD i = !(checksum d false).getLsbD i := by
  have hall : (0xF#4).getLsbD i = true := by
    rw [show 0xF#4 = BitVec.allOnes 4 from rfl, BitVec.getLsbD_allOnes, decide_eq_true hi]
  rw [checksum_true, BitVec.getLsbD_xor, hall, Bool.xor_true]

/-- The checksums of the two polarities are never equal (R122). -/
theorem Machine.checksum_ne_not (d : Data12) (inv : Bool) : checksum d inv ≠ checksum d (!inv) := by
  have hne : checksum d true ≠ checksum d false := fun h => by
    have hbit := getLsbD_checksum_true d (i := 0) (by decide)
    exact Bool.not_ne_self _ (hbit.symm.trans (congrArg (·.getLsbD 0) h))
  cases inv
  · exact hne.symm
  · exact hne

/-- A packet verifies when its checksum field is the checksum of its data field (R128). -/
theorem Machine.verifyPacket_iff (p : Packet) (inv : Bool) :
    verifyPacket p inv = true ↔ checksumOf p = checksum (dataOf p) inv := beq_iff_eq

/-- A packet verifies in one polarity at most (R122). -/
theorem Machine.verifyPacket_not {p : Packet} {inv : Bool} (h : verifyPacket p inv = true) :
    verifyPacket p (!inv) = false := by
  refine Bool.eq_false_iff.mpr fun h' => ?_
  rw [verifyPacket_iff] at h h'
  exact checksum_ne_not (dataOf p) inv (h.symm.trans h')

/-- The checksum of a packet's data field folds the packet's upper three nibbles (R121, R128). -/
theorem Machine.checksum_dataOf (p : Packet) (inv : Bool) : checksum (dataOf p) inv =
    (p.extractLsb' 4 4 ^^^ p.extractLsb' 8 4 ^^^ p.extractLsb' 12 4) ^^^ (if inv then 0xF#4 else 0x0#4) := by
  rw [checksum_eq_fold, dataOf, extractLsb'_extractLsb'_add p (by decide), extractLsb'_extractLsb'_add p (by decide),
    extractLsb'_extractLsb'_add p (by decide)]

/-- `CSUM` in one equation (R129). -/
theorem Machine.exec_csum (d : Data12) (pol : Bool) (s : State) :
    exec (.csum d pol) s = .next { s with res := (checksum d pol).setWidth 32 } := rfl

/-- `VERIFY` in one equation (R130). -/
theorem Machine.exec_verify (p : Packet) (pol : Bool) (s : State) :
    exec (.verify p pol) s = .next { s with
      res := if checksumOf p = checksum (dataOf p) pol then 1 else 0 } := by
  have hres : zext (BitVec.ofBool (verifyPacket p pol)) =
      if checksumOf p = checksum (dataOf p) pol then 1 else 0 := by
    simp only [← verifyPacket_iff]
    cases verifyPacket p pol <;> rfl
  rw [← hres]
  rfl

/-- An assembled packet verifies in its own polarity (R132). -/
theorem Machine.verifyPacket_assemblePacket (thr : Throttle) (b : Bool) :
    verifyPacket (assemblePacket thr b) b = true := by
  rw [verifyPacket_iff, checksumOf_assemblePacket, dataOf_assemblePacket]

/-- The upper eleven data bits are the throttle (R123). -/
theorem Machine.extractLsb'_data12 (thr : Throttle) (tel : Bool) : (data12 thr tel).extractLsb' 1 11 = thr := by
  refine BitVec.eq_of_getLsbD_eq fun i hi => ?_
  have h12 : i < 12 ∧ i + 1 < 12 := by omega
  simp [data12, hi, h12, Nat.add_comm 1 i]

/-- Data bit 0 is the telemetry bit (R123). -/
theorem Machine.getLsbD_data12_zero (thr : Throttle) (tel : Bool) : (data12 thr tel).getLsbD 0 = tel := by
  simp [data12]

/-- `PKT[15:5]` of an assembled packet is its throttle (R132). -/
theorem Machine.throttleOf_assemblePacket (thr : Throttle) (b : Bool) : throttleOf (assemblePacket thr b) = thr :=
  calc throttleOf (assemblePacket thr b)
      = (dataOf (assemblePacket thr b)).extractLsb' 1 11 := by
        rw [dataOf, extractLsb'_extractLsb'_add _ (by decide), throttleOf]
    _ = thr := by rw [dataOf_assemblePacket, extractLsb'_data12]

/-- `PKT[4]` of an assembled packet is its polarity (R125, R132). -/
theorem Machine.telemetryOf_assemblePacket (thr : Throttle) (b : Bool) : telemetryOf (assemblePacket thr b) = b :=
  calc telemetryOf (assemblePacket thr b)
      = (dataOf (assemblePacket thr b)).getLsbD 0 := by simp [telemetryOf, dataOf]
    _ = b := by rw [dataOf_assemblePacket, getLsbD_data12_zero]

/-- Settles O15: `RES` gets the checksum, which is the fold of the nibbles in the operand's polarity. -/
theorem csumFoldsTheNibbles : Obligations.CsumFoldsTheNibbles := by
  unfold Obligations.CsumFoldsTheNibbles
  refine fun d s => ⟨?_, ?_⟩
  · rw [exec_csum, checksum_eq_fold, if_neg Bool.false_ne_true, BitVec.xor_zero]
  · rw [exec_csum, checksum_eq_fold, if_pos rfl]

/-- Settles O16: the inverted checksum is the complement, so one checksum field cannot equal both. -/
theorem polaritiesNeverAgree : Obligations.PolaritiesNeverAgree := by
  unfold Obligations.PolaritiesNeverAgree
  refine ⟨fun d => ⟨checksum_true d, fun i hi => ?_⟩, fun p inv => verifyPacket_not⟩
  rw [getLsbD_checksum_true d hi]
  exact Bool.not_ne_self _

/-- Settles O17: `VERIFY` compares the checksum field with the checksum of the data field, a fold of nibbles. -/
theorem verifyComparesTheChecksum : Obligations.VerifyComparesTheChecksum := by
  unfold Obligations.VerifyComparesTheChecksum
  intro p inv s
  rw [exec_verify, checksum_dataOf, checksumOf]

/-- Settles O18: an assembled packet verifies in its own polarity, hence not in the other, and keeps its fields. -/
theorem assembledPacketsVerify : Obligations.AssembledPacketsVerify := by
  unfold Obligations.AssembledPacketsVerify
  intro thr b
  have hown := verifyPacket_assemblePacket thr b
  exact ⟨hown, verifyPacket_not hown, throttleOf_assemblePacket thr b, telemetryOf_assemblePacket thr b⟩

end Sys2Proof
end

