-- ==== Sys2Proof/Proofs/FrameEncoder.lean ====
section
/-! PROOFS. FrameEncoder.lean: the words of the commands without operands (R71), the frames of the OFF profile (R143),
and `TRANSMIT` (R145). Settles O21 and O23. -/

namespace Sys2Proof

open Sys2Proof.Machine

/-- The commands of format N, which have no operand (R71). -/
def formatN : List Instr := [.nop, .transmit, .decode, .readErpm, .readStatus]

/-- The row of a command without operands fixes every bit of its word (R71, R78). -/
theorem opRow_of_build_formatN {r : OpRow} (hr : r ∈ opRows) {w : Word} (h : r.build w ∈ formatN) :
    r.mask = BitVec.allOnes 32 ∧ r.matchBits = encode (r.build w) := by
  simp only [opRows, List.mem_cons, List.not_mem_nil, or_false] at hr
  rcases hr with rfl | rfl | rfl | rfl | rfl | rfl | rfl | rfl | rfl | rfl | rfl
  all_goals simp [formatN] at h  -- leaves the five rows whose command has no operand
  all_goals exact ⟨by decide, rfl⟩

/-- A command without operands has one word (R71, R78). -/
theorem decode_eq_formatN_iff {i : Instr} (hi : i ∈ formatN) (w : Word) : decode w = .ok i ↔ w = encode i := by
  constructor
  · intro h
    obtain ⟨k, hk, hs, rfl⟩ := row_of_decode w i h
    obtain ⟨hmask, hmatch⟩ := opRow_of_build_formatN (List.getElem_mem hk) hi
    calc w = w &&& (opRows[k]'hk).mask := by rw [hmask, BitVec.and_allOnes]
      _ = encode ((opRows[k]'hk).build w) := by rw [OpRow.selects_iff.mp hs, hmatch]
  · rintro rfl
    exact (by decide : ∀ i ∈ formatN, decode (encode i) = .ok i) i hi

/-- With the OFF profile either bit is a symbol of two zero durations (R143). -/
theorem Machine.dataSymbol_off (b : Bool) :
    dataSymbol ⟨0, 0, 0⟩ b = { level0 := .high, dur0 := 0, level1 := .low, dur1 := 0 } := by
  cases b <;> rfl

/-- With the OFF profile the pause lasts no time, whatever `PAUSE_BITS` (R143). -/
theorem Machine.pauseSymbol_off (pb : Nat) :
    pauseSymbol pb ⟨0, 0, 0⟩ = { level0 := .low, dur0 := 0, level1 := .low, dur1 := 0 } := by
  rw [pauseSymbol, Nat.zero_mul]

/-- The data symbols of a frame encoded with the OFF profile (R143). -/
theorem Machine.encodeFrame_off_getElem (pb : Nat) (p : Packet) (k : Nat) (h : k < 16) :
    (encodeFrame pb p ⟨0, 0, 0⟩)[k] = { level0 := .high, dur0 := 0, level1 := .low, dur1 := 0 } := by
  rw [encodeFrame_getElem pb p _ k h, dataSymbol_off]

/-- The pause of a frame encoded with the OFF profile (R143). -/
theorem Machine.encodeFrame_off_getElem_pause (pb : Nat) (p : Packet) :
    (encodeFrame pb p ⟨0, 0, 0⟩)[16] = { level0 := .low, dur0 := 0, level1 := .low, dur1 := 0 } := by
  rw [encodeFrame_getElem_pause, pauseSymbol_off]

/-- `TRANSMIT` without a frame, in one equation (R92, R145). -/
theorem Machine.exec_transmit_noFrame {s : State} (h : s.frameValid = false) :
    exec .transmit s = .next { s with
      errIllegal := true
      faults := insertFault { cause := .illNoFrame, word := encode .transmit } s.faults } := by
  simp only [exec, execTransmit, if_neg (Bool.eq_false_iff.mp h), raiseIllegal]

/-- Settles O21: both commands encode with the OFF profile, set the mark, and write neither the flag nor the record of
errors. -/
theorem offFramesHaveNoDuration : Obligations.OffFramesHaveNoDuration := by
  unfold Obligations.OffFramesHaveNoDuration
  intro s i hoff hi
  have hprofile : profile s.cfgMode = some ⟨0, 0, 0⟩ := by rw [hoff]; rfl
  have hmark : (s.precondOff || s.cfgMode == 0) = true := by rw [hoff, beq_self_eq_true, Bool.or_true]
  rcases hi with ⟨p, rfl⟩ | ⟨thr, rfl⟩
  · exact ⟨_, exec_encode hprofile p, hmark, rfl, rfl, encodeFrame_off_getElem _ _, encodeFrame_off_getElem_pause _ _⟩
  · exact ⟨_, exec_send hprofile thr, hmark, rfl, rfl, encodeFrame_off_getElem _ _, encodeFrame_off_getElem_pause _ _⟩

/-- Settles O23: the word by the format of `TRANSMIT`, the effect by `FRAME_VALID`. -/
theorem transmitHandsOverTheFrame : Obligations.TransmitHandsOverTheFrame := by
  unfold Obligations.TransmitHandsOverTheFrame
  have hword : encode .transmit = 0x60000000 := by decide
  rw [← hword]
  exact ⟨decode_eq_formatN_iff (by decide), fun s => ⟨exec_transmit, exec_transmit_noFrame⟩⟩

end Sys2Proof
end

