-- ==== Sys2Proof/Proofs/FrameDecoder.lean ====
section
/-! PROOFS. FrameDecoder.lean: the bit of a symbol (R162), the decoding function in one equation (R175), the two ways a
received checksum is wrong (R172, R174), the round trip with the encoder (R173), and the two commands that read
telemetry (R168, R170). Settles O26, O31 to O34, O37 and O38. -/

namespace Sys2Proof

open Sys2Proof.Machine

/-! ### Bit recovery -/

/-- The bit of a symbol is 1 exactly when it is high for longer than it is low: halving the total with rounding down
loses nothing (R162). -/
theorem Machine.symbolBit_iff (y : LineSymbol) : symbolBit y = true ↔ y.dur1 < y.dur0 := by
  rw [symbolBit, decide_eq_true_iff]
  omega

/-- The loop never counts past sixteen (R160, R163). -/
theorem Machine.scanBits_count_le (l : List LineSymbol) (v : Packet) {c : Nat} (hc : c ≤ 16) :
    (scanBits l v c).2 ≤ 16 := by
  induction l generalizing v c with
  | nil => exact hc
  | cons y ys ih =>
    unfold scanBits
    split
    case isTrue h =>
      obtain ⟨hlt, -⟩ := Bool.and_eq_true_iff.mp h
      exact ih _ (of_decide_eq_true hlt)
    case isFalse => exact hc

/-- At most sixteen bits are recovered (R163). -/
theorem Machine.decodeBits_count_le (l : List LineSymbol) : (decodeBits l).2 ≤ 16 :=
  scanBits_count_le l 0 (Nat.zero_le 16)

/-- Nothing after the sixteenth symbol is read (R160, R163). -/
theorem Machine.decodeBits_take (l : List LineSymbol) : decodeBits (l.take 16) = decodeBits l :=
  (scanBits_take l 0 0 (by decide)).symm

/-- Sixteen symbols of polarity (high, low) are sixteen bits (R160). -/
theorem Machine.decodeBits_of_good {l : List LineSymbol} (hl : l.length = 16) (hg : ∀ y ∈ l, highThenLow y = true) :
    decodeBits l = (shiftIn l 0, 16) := by
  have h := scanBits_append l [] 0 0 hg (by omega)
  rwa [List.append_nil, hl] at h

/-! ### The decoding function -/

/-- `DecodeFrame` in one equation: sixteen bits that verify in the inverted polarity, with a throttle of the band, whose
upper end is the field's largest value (R175). -/
theorem Machine.decodeFrame_eq {l : List LineSymbol} {p : Packet} {n : Nat} (h : decodeBits l = (p, n)) (scale : Nat) :
    decodeFrame scale l = if n = 16 ∧ verifyPacket p true = true ∧ 48 ≤ (throttleOf p).toNat
      then some (BitVec.ofNat 32 ((throttleOf p).toNat * scale)) else none := by
  have hn : n ≤ 16 := by simpa [h] using decodeBits_count_le l
  have hmax : (throttleOf p).toNat < 2048 := (throttleOf p).isLt
  simp only [decodeFrame, h, Config.maxBits, Config.thrMin, Config.thrMax]
  by_cases hcount : n < 16
  · rw [if_pos hcount, if_neg fun hc => by omega]
  cases hverify : verifyPacket p true with
  | false => simp
  | true =>
    by_cases hband : 48 ≤ (throttleOf p).toNat
    · simp [hband, show n = 16 by omega, show (throttleOf p).toNat ≤ 2047 by omega]
    · simp [hcount, hband, show (throttleOf p).toNat < 48 by omega]

/-- A value that does not verify in the inverted polarity does not decode (R165). -/
theorem Machine.decodeFrame_of_not_verify {l : List LineSymbol} {p : Packet} {n : Nat} (h : decodeBits l = (p, n))
    (hverify : verifyPacket p true = false) (scale : Nat) : decodeFrame scale l = none := by
  rw [decodeFrame_eq h, if_neg fun hc => by simp [hverify] at hc]

/-- A value that decodes verifies in the inverted polarity (R165). -/
theorem Machine.verify_of_decodeFrame {l : List LineSymbol} {p : Packet} {n scale : Nat} (h : decodeBits l = (p, n))
    (hd : decodeFrame scale l ≠ none) : verifyPacket p true = true := by
  rw [← Bool.not_eq_false]
  exact fun hverify => hd (decodeFrame_of_not_verify h hverify scale)

/-! ### Wrong checksums -/

/-- A packet is its data field and its checksum field (R25). -/
theorem Machine.packet_ext {p q : Packet} (hd : dataOf p = dataOf q) (hc : checksumOf p = checksumOf q) : p = q := by
  refine BitVec.eq_of_getLsbD_eq fun i hi => ?_
  by_cases h4 : i < 4
  · simpa [checksumOf, h4] using congrArg (·.getLsbD i) hc
  · simpa [dataOf, show 4 + (i - 4) = i by omega, show i - 4 < 12 by omega] using congrArg (·.getLsbD (i - 4)) hd

/-- The exclusive-or of a packet's four nibbles. -/
def nibbleFold (p : Packet) : Nibble :=
  p.extractLsb' 0 4 ^^^ (p.extractLsb' 4 4 ^^^ p.extractLsb' 8 4 ^^^ p.extractLsb' 12 4)

/-- A packet verifies in the inverted polarity when its nibbles fold to ones (R121, R128). -/
theorem Machine.verifyPacket_true_iff_nibbleFold (p : Packet) :
    verifyPacket p true = true ↔ nibbleFold p = 0xF#4 := by
  rw [verifyPacket_iff, checksum_dataOf, if_pos rfl, checksumOf, nibbleFold]
  constructor
  · intro h
    simp [h, BitVec.xor_comm _ 0xF#4]
  · intro h
    simp [← h]

/-- The fold is linear: it takes the change of a packet to the change of its fold. -/
theorem nibbleFold_xor (p q : Packet) : nibbleFold (p ^^^ q) = nibbleFold p ^^^ nibbleFold q := by
  simp only [nibbleFold, BitVec.extractLsb'_xor]
  ac_rfl

/-- One bit is in one nibble, so it shows in the fold. -/
theorem nibbleFold_twoPow_ne_zero {k : Nat} (hk : k < 16) : nibbleFold (BitVec.twoPow 16 k) ≠ 0 :=
  (by decide : ∀ k : Fin 16, nibbleFold (BitVec.twoPow 16 k) ≠ 0) ⟨k, hk⟩

/-- A change that shows in the fold makes a packet that verified fail (R174). -/
theorem Machine.verifyPacket_xor {p q : Packet} (h : verifyPacket p true = true) (hq : nibbleFold q ≠ 0) :
    verifyPacket (p ^^^ q) true = false := by
  refine Bool.eq_false_iff.mpr fun h' => hq ?_
  rw [verifyPacket_true_iff_nibbleFold] at h h'
  rw [nibbleFold_xor, h] at h'
  exact xor_left_eq_self_iff.mp h'

/-! ### The encoder's frames -/

/-- Off OFF, the symbol of a bit is read back as that bit: a 0 is high for 3/8 of its period and a 1 for 6/8 (R106,
R162). -/
theorem Machine.symbolBit_dataSymbol {g : GradeCode} {t : TimingProfile} (h : profile g = some t) (hg : g ≠ 0)
    (b : Bool) : symbolBit (dataSymbol t b) = b := by
  obtain ⟨hpos, h0, h1⟩ := profile_ratio h hg
  rw [Bool.eq_iff_iff, symbolBit_iff]
  cases b
  · simp only [dataSymbol, Bool.false_eq_true, if_false, iff_false]
    omega
  · simp only [dataSymbol, if_true, iff_true]
    omega

/-- The first sixteen symbols of an encoded frame are its data symbols (R52, R140). -/
theorem Machine.encodeFrame_take (pb : Nat) (p : Packet) (t : TimingProfile) : (encodeFrame pb p t).toList.take 16 =
    (List.range 16).map fun i => dataSymbol t (p.getLsbD (15 - i)) := by
  rw [encodeFrame_toList, List.take_left' (by simp)]

/-- Off OFF, the bits recovered from an encoded frame are its packet (R173). -/
theorem Machine.decodeBits_encodeFrame {g : GradeCode} {t : TimingProfile} (h : profile g = some t) (hg : g ≠ 0)
    (pb : Nat) (p : Packet) : decodeBits (encodeFrame pb p t).toList = (p, 16) := by
  have hgood : ∀ y ∈ (encodeFrame pb p t).toList.take 16, highThenLow y = true := by
    rw [encodeFrame_take]
    simp [highThenLow, dataSymbol]
  rw [← decodeBits_take, decodeBits_of_good (by simp) hgood, encodeFrame_take]
  refine congrArg (·, 16) (BitVec.eq_of_getLsbD_eq fun j hj => ?_)
  rw [getLsbD_shiftIn _ _ _ hj]
  simp [hj, symbolBit_dataSymbol h hg, show 15 - (15 - j) = j by omega]

/-! ### The commands -/

/-- `READ_ERPM` in one equation (R170). -/
theorem Machine.exec_readErpm (s : State) : exec .readErpm s = .next { s with res := s.lastErpm } := rfl

/-! ### The statements -/

/-- Settles O33: the packet comes back whole from its frame, it verifies, and so only its throttle decides. -/
theorem encodedTelemetryDecodes : Obligations.EncodedTelemetryDecodes := by
  unfold Obligations.EncodedTelemetryDecodes
  intro g t thr pb scale hg ht
  have hbits := decodeBits_encodeFrame ht hg pb (assemblePacket thr true)
  have hdecode {l : List LineSymbol} (h : decodeBits l = (assemblePacket thr true, 16)) : decodeFrame scale l =
      if 48 ≤ thr.toNat then some (BitVec.ofNat 32 (thr.toNat * scale)) else none := by
    simp [decodeFrame_eq h, verifyPacket_assemblePacket, throttleOf_assemblePacket]
  refine ⟨fun hband => ⟨?_, ?_⟩, fun hlow => ?_⟩
  · rw [hdecode hbits, if_pos hband]
  · rw [hdecode ((decodeBits_take _).trans hbits), if_pos hband]
  · rw [hdecode hbits, if_neg (by omega)]

/-- Settles O31: the condition of the one equation, with the checksum as a fold of nibbles. -/
theorem decodeSucceedsExactlyOnValidFrames : Obligations.DecodeSucceedsExactlyOnValidFrames := by
  unfold Obligations.DecodeSucceedsExactlyOnValidFrames
  intro l scale v
  obtain ⟨p, n, h⟩ : ∃ p n, decodeBits l = (p, n) := ⟨_, _, rfl⟩
  have hmax : (throttleOf p).toNat ≤ 2047 := by omega
  have hverify := verifyPacket_iff p true
  rw [checksum_dataOf, if_pos rfl, checksumOf] at hverify
  rw [decodeFrame_eq h, Option.ite_none_right_eq_some, hverify, h]
  constructor
  · rintro ⟨⟨rfl, hsum, hmin⟩, hv⟩
    exact ⟨p, rfl, hsum, hmin, hmax, (Option.some.inj hv).symm⟩
  · rintro ⟨q, hq, hsum, hmin, -, rfl⟩
    cases hq
    exact ⟨⟨rfl, hsum, hmin⟩, rfl⟩

/-- Settles O32: what verifies in the standard polarity does not verify in the other. -/
theorem standardChecksumNeverDecodes : Obligations.StandardChecksumNeverDecodes := by
  unfold Obligations.StandardChecksumNeverDecodes
  intro l scale p n h hsum
  have hverify : verifyPacket p true = false := verifyPacket_not (inv := false) ((verifyPacket_iff p false).mpr hsum)
  exact ⟨hverify, decodeFrame_of_not_verify h hverify scale⟩

/-- Settles O34: the data field fixes the checksum field, and one changed bit changes the fold of the nibbles. -/
theorem singleBitErrorsAreRejected : Obligations.SingleBitErrorsAreRejected := by
  unfold Obligations.SingleBitErrorsAreRejected
  refine ⟨fun p q hp hdata hne => Bool.eq_false_iff.mpr fun hq => hne ?_,
    fun l m scale scale' p k hk hl hd hm => ?_⟩
  · have hdata' : dataOf q = dataOf p := hdata
    rw [verifyPacket_iff] at hp hq
    exact packet_ext hdata' (by rw [hq, hp, hdata'])
  · have hflip : verifyPacket (p ^^^ BitVec.twoPow 16 k) true = false :=
      verifyPacket_xor (verify_of_decodeFrame hl hd) (nibbleFold_twoPow_ne_zero hk)
    exact ⟨hflip, decodeFrame_of_not_verify hm hflip scale'⟩

/-- Settles O37: an answer that does not decode gives no value, so `DECODE` leaves `LAST_ERPM` and copies it. -/
theorem decodeFailuresLookAlike : Obligations.DecodeFailuresLookAlike := by
  unfold Obligations.DecodeFailuresLookAlike
  intro s hb hr hnone
  simp only [exec_decode hb hr, hnone, Option.getD_none, List.isEmpty_iff]

/-- Settles O26: over the numbers, each of the three readings says that the high time is the longer one. -/
theorem symbolBitIsTheLongerHalf : Obligations.SymbolBitIsTheLongerHalf := by
  unfold Obligations.SymbolBitIsTheLongerHalf
  intro y
  rw [← Bool.not_eq_true, symbolBit_iff]
  omega

/-- Settles O38: the word by the format of `READ_ERPM`, the effect by its meaning. -/
theorem readErpmCopiesTelemetry : Obligations.ReadErpmCopiesTelemetry := by
  unfold Obligations.ReadErpmCopiesTelemetry
  have hword : encode .readErpm = 0x90000000 := by decide
  rw [← hword]
  exact ⟨decode_eq_formatN_iff (by decide), exec_readErpm⟩

end Sys2Proof
end

