-- ==== Sys2Proof/Proofs/HostController.lean ====
section
/-! PROOFS. HostController.lean: the host's calls (R180): what `setThrottle` does with a clamped request (R181, R182),
and what `getERPM` and `getMotorRPM` return (R183, R184). Settles O41 and O43. -/

namespace Sys2Proof

open Sys2Proof.Machine

/-- The word of `SEND` is its opcode with the throttle in the low bits (R74). -/
theorem encode_send (c : Throttle) : encode (.send c) = 0x70000000 ||| c.setWidth 32 := by
  simp [encode, place]

/-- `setThrottle` of a request that clamps to the last throttle issues nothing (R182). -/
theorem Machine.callSetThrottle_unchanged {s : State} {r : BitVec 16} (h : clampThrottle r = s.lastThrottle) :
    callSetThrottle r s = .next s := if_pos h

/-- `setThrottle` of any other request issues one `SEND` of the clamped throttle (R182). -/
theorem Machine.callSetThrottle_changed {s : State} {r : BitVec 16} (h : clampThrottle r ≠ s.lastThrottle) :
    callSetThrottle r s = exec (.send (clampThrottle r))
      ((s.setLastThrottle (clampThrottle r)).record (.command (encode (.send (clampThrottle r))))) :=
  (if_neg h).trans (issue_encode _ _ (decode_of_encodesItsRow (Laws.EncodesItsRow.send _)))

/-- `getERPM` returns the `RES` that its `DECODE` leaves (R183). -/
theorem Machine.callGetERPM_of_decode {s t : State}
    (h : exec .decode (s.record (.command (encode .decode))) = .next t) :
    callGetERPM s = .next (t.setHostResult t.res) := by
  rw [callGetERPM, issue_encode _ _ (decode_of_encodesItsRow Laws.EncodesItsRow.decode), h, andThen_next]

/-- `getMotorRPM` returns the quotient of the `RES` that its `DECODE` leaves (R184). -/
theorem Machine.callGetMotorRPM_of_decode {s t : State} (m : BitVec 8)
    (h : exec .decode (s.record (.command (encode .decode))) = .next t) :
    callGetMotorRPM m s = .next (t.setHostResult (BitVec.ofNat 32 (t.res.toNat / poleCount m))) := by
  rw [callGetMotorRPM, callGetERPM_of_decode h, andThen_next, State.setHostResult_hostResult]
  rfl

/-- A quotient of a word fits a word. -/
theorem toNat_ofNat_div (v : Word) (d : Nat) : (BitVec.ofNat 32 (v.toNat / d)).toNat = v.toNat / d :=
  (BitVec.toNat_ofNat _ _).trans (Nat.mod_eq_of_lt ((Nat.div_le_self _ _).trans_lt v.isLt))

/-- Settles O41: the call is its input's step, and the clamped request decides between no command and one `SEND`. -/
theorem setThrottleSendsOnChangeOnly : Obligations.SetThrottleSendsOnChangeOnly := by
  unfold Obligations.SetThrottleSendsOnChangeOnly
  intro s r rest hm hin
  have hstep : step s = callSetThrottle r (s.setInputs rest) := step_of_input hm hin
  refine ⟨clampThrottle r, clampThrottle_toNat r, fun hsame => ?_, fun hnew => ?_⟩
  · exact hstep.trans (callSetThrottle_unchanged hsame)
  · have hsend := hstep.trans (callSetThrottle_changed hnew)
    obtain ⟨t, ht⟩ : ∃ t, step s = .next t := by
      rw [hsend]
      exact exec_completes (by simpa using hm) _
    rw [← encode_send]
    exact ⟨t, ht, hsend.symm.trans ht⟩

/-- Settles O43: `DECODE` completes, and each call goes on from the state it leaves. -/
theorem telemetryCallsReturnDecodedValue : Obligations.TelemetryCallsReturnDecodedValue := by
  unfold Obligations.TelemetryCallsReturnDecodedValue
  intro s i rest hm hin
  have hword : encode .decode = 0x80000000 := by decide
  rw [← hword]
  obtain ⟨t, ht⟩ := exec_completes (s := (s.setInputs rest).record (.command (encode .decode))) hm .decode
  refine ⟨t, ht, ?_, ?_⟩
  · rintro rfl
    exact (step_of_input hm hin).trans (callGetERPM_of_decode ht)
  · rintro m rfl
    exact ⟨_, (step_of_input hm hin).trans (callGetMotorRPM_of_decode m ht), toNat_ofNat_div _ _⟩

end Sys2Proof
end

