-- ==== Sys2Proof/Proofs/ResetAndHazards.lean ====
section
/-! PROOFS. ResetAndHazards.lean: what only a reset takes back (R221), as a relation that every other part of a step
keeps, and the refusal of a reserved `CFG_MODE` (R222). Settles O10 and O50. -/

namespace Sys2Proof

open Sys2Proof.Machine

/-! ### The reserved grades -/

/-- From a reserved grade there is no step (R222). -/
theorem Machine.step_of_reserved {s : State} (h : 5 ≤ s.cfgMode.toNat) : step s = .refused .reservedMode :=
  if_pos (decide_eq_true h)

/-- There is no reset to a reserved grade (R222). -/
theorem Machine.resetInstance_reserved {inp : ResetInputs} (h : 5 ≤ inp.mode.toNat) (s : State) :
    resetInstance inp s = .refused .reservedMode :=
  if_pos (decide_eq_true h)

/-- Settles O10: the step checks the state's grade first, and a reset checks the mode it would sample. -/
theorem reservedModeIsRefused : Obligations.ReservedModeIsRefused := by
  unfold Obligations.ReservedModeIsRefused
  refine ⟨fun s h => step_of_reserved h, fun s inp rest hin hmode => ?_⟩
  by_cases hs : 5 ≤ s.cfgMode.toNat
  case pos => exact step_of_reserved hs
  case neg => exact (step_of_input (decide_eq_false hs) hin).trans (resetInstance_reserved hmode _)

/-! ### What only a reset takes back -/

/-- The part of the state that only a reset takes back: the three flags, the two marks of the model, the history. -/
def Machine.State.sticky (s : State) : Bool × Bool × Bool × Bool × List FaultRecord × List Event :=
  (s.errIllegal, s.frameValid, s.txLoaded, s.precondOff, s.faults, s.hist)

/-- From `s` to `t` no flag or mark is cleared, no fault record lost and no event of the history taken back (R221). -/
structure Machine.State.Retains (s t : State) : Prop where
  errIllegal : s.errIllegal = true → t.errIllegal = true
  frameValid : s.frameValid = true → t.frameValid = true
  txLoaded : s.txLoaded = true → t.txLoaded = true
  precondOff : s.precondOff = true → t.precondOff = true
  faults : s.faults ⊆ t.faults
  hist : s.hist <+: t.hist

theorem Machine.State.Retains.trans {s t u : State} (h : s.Retains t) (k : t.Retains u) : s.Retains u where
  errIllegal := k.errIllegal ∘ h.errIllegal
  frameValid := k.frameValid ∘ h.frameValid
  txLoaded := k.txLoaded ∘ h.txLoaded
  precondOff := k.precondOff ∘ h.precondOff
  faults := List.Subset.trans h.faults k.faults
  hist := h.hist.trans k.hist

theorem Machine.State.Retains.refl (s : State) : s.Retains s :=
  ⟨id, id, id, id, List.Subset.refl _, List.prefix_refl _⟩

/-- An operation that leaves the sticky part as it was retains it. -/
theorem Machine.State.Retains.of_sticky_eq {s t : State} (h : t.sticky = s.sticky) : s.Retains t := by
  simp only [State.sticky, Prod.mk.injEq] at h
  obtain ⟨herr, hvalid, hloaded, hoff, hfaults, hhist⟩ := h
  constructor <;> simp [*]

theorem Machine.State.Retains.setRes {s t : State} (h : s.Retains t) (v : Word) : s.Retains (t.setRes v) :=
  h.trans (.of_sticky_eq rfl)

theorem Machine.State.Retains.setPkt {s t : State} (h : s.Retains t) (p : Packet) : s.Retains (t.setPkt p) :=
  h.trans (.of_sticky_eq rfl)

theorem Machine.State.retains_record (s : State) (e : Event) : s.Retains (s.record e) :=
  { State.Retains.refl s with hist := List.prefix_append _ _ }

/-- A rejection sets `ERR_ILLEGAL` and adds a record to `FAULT` (R92). -/
theorem Machine.State.retains_rejected (s : State) (r : FaultRecord) :
    s.Retains { s with errIllegal := true, faults := insertFault r s.faults } :=
  { State.Retains.refl s with
    errIllegal := fun _ => rfl
    faults := fun _ hx => (mem_insertFault r _ _).mpr (.inr hx) }

/-- The mark of an OFF run is only ever set (R144, R146). -/
theorem Machine.State.retains_markIfOff (s : State) : s.Retains s.markIfOff :=
  { State.Retains.refl s with precondOff := fun h => Bool.or_eq_true_iff.mpr (.inl h) }

/-- A frame stored sets `FRAME_VALID` (R27). -/
theorem Machine.State.retains_storeFrame (s : State) (f : Frame) : s.Retains (s.storeFrame f) :=
  { State.Retains.refl s with frameValid := fun _ => rfl }

/-- A hand-over is recorded and sets `TX_LOADED` (R58, R145). -/
theorem Machine.State.retains_txLoad_setTxLoaded (s : State) (f : Frame) : s.Retains (txLoad f s).setTxLoaded :=
  { State.Retains.refl s with
    txLoaded := fun _ => rfl
    hist := List.prefix_append _ _ }

theorem Machine.State.retains_frameBoundary (s : State) : s.Retains (frameBoundary s) :=
  .of_sticky_eq (by rw [frameBoundary_eq]; rfl)

theorem Machine.State.retains_frameRepeat (s : State) : s.Retains (frameRepeat s) :=
  .of_sticky_eq (by rw [frameRepeat_eq]; rfl)

/-- `DECODE`'s poll only adds its event to the history (R169). -/
theorem Machine.State.retains_pollTelemetry (s : State) : s.Retains (pollTelemetry s) :=
  (s.retains_record (.rxPoll (nextAnswer s))).trans (.of_sticky_eq (by rw [pollTelemetry_eq]; rfl))

/-- No command takes back anything of the sticky part. -/
theorem Machine.Effect.retains {s t : State} {i : Instr} (h : Effect s i t) : s.Retains t := by
  cases h with
  | result v => exact .of_sticky_eq rfl
  | packet thr => exact .of_sticky_eq rfl
  | badGrade g hg => exact s.retains_rejected _
  | noFrame hv => exact s.retains_rejected _
  | encoded p u hu => exact (s.retains_markIfOff.trans (State.retains_storeFrame _ _)).setRes _
  | handedOver hv => exact (s.retains_txLoad_setTxLoaded _).setRes _
  | sent thr u hu =>
    have hpkt := s.retains_markIfOff.setPkt (assemblePacket thr s.cfgBidir)
    exact ((hpkt.trans (State.retains_storeFrame _ _)).trans (State.retains_txLoad_setTxLoaded _ _)).setRes _
  | polled hb hr => exact s.retains_pollTelemetry.setRes _

/-! ### What changes `LAST_ERPM` -/

/-- From `s` to `t` `LAST_ERPM` is kept, or it is what the polled answer recorded last decodes to (R169, R221). -/
def Machine.State.ErpmKeptOrPolled (s t : State) : Prop :=
  t.lastErpm = s.lastErpm ∨ s.cfgBidir = true ∧ s.cfgRxPresent = true ∧
    ∃ l, t.hist.getLast? = some (.rxPoll (some l)) ∧ decodeFrame s.params.erpmScale l = some t.lastErpm

/-- A poll changes `LAST_ERPM` only by an answer that decodes. -/
theorem Machine.lastErpm_pollTelemetry (s : State) : (pollTelemetry s).lastErpm = s.lastErpm ∨
    ∃ l, (pollTelemetry s).hist.getLast? = some (.rxPoll (some l)) ∧
      decodeFrame s.params.erpmScale l = some (pollTelemetry s).lastErpm := by
  rw [pollTelemetry_eq]
  cases hdec : (nextAnswer s).bind (decodeFrame s.params.erpmScale) with
  | none => exact .inl rfl
  | some v =>
    obtain ⟨l, hl, hv⟩ := Option.bind_eq_some_iff.mp hdec
    exact .inr ⟨l, by simp [hl], hv⟩

/-- Only `DECODE` writes `LAST_ERPM`. -/
theorem Machine.Effect.erpmKeptOrPolled {s t : State} {i : Instr} (h : Effect s i t) : s.ErpmKeptOrPolled t := by
  cases h
  case polled hb hr => exact (lastErpm_pollTelemetry s).imp id fun hpoll => ⟨hb, hr, hpoll⟩
  all_goals exact .inl (by simp)

/-! ### One command and one step -/

/-- Issuing a word takes nothing back, and changes `LAST_ERPM` only by a poll. -/
theorem Machine.issue_retains {w : Word} {s t : State} (h : issue w s = .next t) :
    s.Retains t ∧ s.ErpmKeptOrPolled t := by
  have hrec := s.retains_record (.command w)
  rcases issue_cases h with ⟨i, -, hexec⟩ | ⟨c, -, rfl⟩
  · have heff := exec_effect hexec
    exact ⟨hrec.trans heff.retains, heff.erpmKeptOrPolled⟩
  · exact ⟨hrec.trans (State.retains_rejected _ ⟨c, w⟩), .inl rfl⟩

/-- No move but a reset takes anything back, or changes `LAST_ERPM` otherwise than by a poll. -/
theorem Machine.Move.retains {s t : State} (h : Move s t) (hno : ∀ i rest, s.inputs = i :: rest → i.isReset = false) :
    s.Retains t ∧ s.ErpmKeptOrPolled t := by
  have htaken (rest : List Input) : s.Retains (s.setInputs rest) := .of_sticky_eq rfl
  cases h with
  | idle hin => exact ⟨s.retains_frameBoundary, .inl (by rw [frameBoundary_eq])⟩
  | command w rest hin _ hi =>
    obtain ⟨hkept, herpm⟩ := issue_retains hi
    exact ⟨(htaken rest).trans hkept, herpm⟩
  | boundary rest hin =>
    exact ⟨(htaken rest).trans (State.retains_frameBoundary _), .inl (by rw [frameBoundary_eq]; rfl)⟩
  | again rest hin => exact ⟨(htaken rest).trans (State.retains_frameRepeat _), .inl (by rw [frameRepeat_eq]; rfl)⟩
  | throttleKept r rest hin hc => exact ⟨htaken rest, .inl rfl⟩
  | throttleSent r rest hin hc _ hi =>
    obtain ⟨hkept, herpm⟩ := issue_retains hi
    have hset : s.Retains ((s.setInputs rest).setLastThrottle (clampThrottle r)) := .of_sticky_eq rfl
    exact ⟨hset.trans hkept, herpm⟩
  | telemetry i rest hin hi u hd v =>
    obtain ⟨hkept, herpm⟩ := issue_retains hd
    exact ⟨((htaken rest).trans hkept).trans (.of_sticky_eq rfl), herpm⟩
  | reset inp rest hin hm => exact absurd (hno _ rest hin) (by simp [Input.isReset])

/-- Settles O50: a step is a move, and no move but a reset takes anything back. -/
theorem onlyResetClears : Obligations.OnlyResetClears := by
  unfold Obligations.OnlyResetClears
  intro s t hstep hno
  obtain ⟨hkept, herpm⟩ := (step_move hstep).2.retains hno
  obtain ⟨es, hes⟩ := hkept.hist
  exact ⟨hkept.errIllegal, hkept.frameValid, hkept.txLoaded, hkept.precondOff, fun _ hr => hkept.faults hr,
    ⟨es, hes.symm⟩, herpm⟩

end Sys2Proof
end

