-- ==== Sys2Proof/Proofs/CommandWords.lean ====
section
/-! PROOFS. CommandWords.lean: commands and command words are the same thing written twice: each command has a word that
decodes to it, and a word that decodes is that word (R71 to R78, R84). Settles O1, O3 and O4. -/

namespace Sys2Proof

open Sys2Proof.Machine

/-- Every command's word is selected by a row that rebuilds the command (R78). -/
theorem encodesItsRow (i : Instr) : Laws.EncodesItsRow.Statement i := by
  cases i with
  | nop => exact Laws.EncodesItsRow.nop
  | csum d p => exact Laws.EncodesItsRow.csum d p
  | verify k p => exact Laws.EncodesItsRow.verify k p
  | assemble t => exact Laws.EncodesItsRow.assemble t
  | lut g => exact Laws.EncodesItsRow.lut g
  | encode k => exact Laws.EncodesItsRow.encode k
  | transmit => exact Laws.EncodesItsRow.transmit
  | send t => exact Laws.EncodesItsRow.send t
  | decode => exact Laws.EncodesItsRow.decode
  | readErpm => exact Laws.EncodesItsRow.readErpm
  | readStatus => exact Laws.EncodesItsRow.readStatus

/-- The word of a command decodes to it (R84). -/
theorem decode_encode (i : Instr) : decode (encode i) = .ok i := decode_of_encodesItsRow (encodesItsRow i)

/-- An operand field from bit 0 up, put back at its place, is the word's bits there. -/
theorem Machine.place_extractLsb'_zero (w : Word) (n : Nat) :
    place (w.extractLsb' 0 n) 0 = w &&& (BitVec.allOnes n).setWidth 32 := by
  refine BitVec.eq_of_getLsbD_eq fun i hi => ?_
  rw [getLsbD_place, BitVec.getLsbD_and, BitVec.getLsbD_setWidth, BitVec.getLsbD_extractLsb', BitVec.getLsbD_allOnes]
  simp [hi, Bool.and_comm]

/-- An operand bit, put back at its place, is the word's bit there. -/
theorem Machine.place_getLsbD (w : Word) {k : Nat} (hk : k < 32) :
    place (BitVec.ofBool (w.getLsbD k)) k = w &&& BitVec.twoPow 32 k := by
  refine BitVec.eq_of_getLsbD_eq fun i hi => ?_
  rw [getLsbD_place_ofBool _ hk, BitVec.getLsbD_and, BitVec.getLsbD_twoPow]
  by_cases hik : i = k
  · simp [hik, hk]
  · simp [hik, Ne.symm hik]

/-- The command that a row builds from a word has the row's fixed bits and takes the operand bits over (R71 to R76). -/
theorem encode_build {r : OpRow} (hr : r ∈ opRows) (w : Word) :
    encode (r.build w) = r.matchBits ||| (w &&& ~~~r.mask) := by
  simp only [opRows, List.mem_cons, List.not_mem_nil, or_false] at hr
  rcases hr with rfl | rfl | rfl | rfl | rfl | rfl | rfl | rfl | rfl | rfl | rfl
  all_goals
    simp only [encode, data12Field, polFieldC, pkt16Field, polFieldV, thrField, gradeField, place_extractLsb'_zero,
      place_getLsbD w (by decide : 12 < 32), place_getLsbD w (by decide : 16 < 32), BitVec.or_assoc,
      ← BitVec.and_or_distrib_left]
    simp [place, BitVec.twoPow]

/-- The command that a row builds from a word it selects has that word: the mask leaves the operand bits alone free. -/
theorem encode_build_of_selects {r : OpRow} (hr : r ∈ opRows) {w : Word} (h : r.selects w = true) :
    encode (r.build w) = w := by
  rw [encode_build hr, ← OpRow.selects_iff.mp h]
  refine BitVec.eq_of_getLsbD_eq fun i hi => ?_
  cases hmask : r.mask[i] <;> simp [hi, hmask]

/-- A word that decodes is the word of its command (R78). -/
theorem encode_of_decode {w : Word} {i : Instr} (h : decode w = .ok i) : encode i = w := by
  obtain ⟨k, hk, hselects, rfl⟩ := row_of_decode w i h
  exact encode_build_of_selects (List.getElem_mem hk) hselects

/-- Settles O3: the command's row selects its word and gives the operands back. -/
theorem decodeInvertsEncode : Obligations.DecodeInvertsEncode := by
  unfold Obligations.DecodeInvertsEncode
  exact decode_encode

/-- Settles O4: the row that selects the word fixes every bit that is no operand. -/
theorem encodeInvertsDecode : Obligations.EncodeInvertsDecode := by
  unfold Obligations.EncodeInvertsDecode
  exact fun w i => encode_of_decode

/-- Settles O1: the twelve words are literals, and each is decoded by the first row that selects it. -/
theorem writtenWordsDecode : Obligations.WrittenWordsDecode := by
  unfold Obligations.WrittenWordsDecode
  decide

end Sys2Proof
end

