-- ==== Sys2Proof/Proofs/TransmitPath.lean ====
section
/-! PROOFS. TransmitPath.lean: a frame on its way from `FRAME` through the hand-over to the line (R26, R27, R58, R147).
Two operations move one, storing and handing over, and two steps of the transceiver put one on the line; everything else
leaves the path as it was. Settles O52. -/

namespace Sys2Proof

open Sys2Proof.Machine

@[simp] theorem Machine.loadsOf_command (w : Word) : loadsOf [.command w] = [] := rfl
@[simp] theorem Machine.loadsOf_txLoad (f : Frame) : loadsOf [.txLoad f] = [f] := rfl
@[simp] theorem Machine.loadsOf_rxPoll (a : Option (List LineSymbol)) : loadsOf [.rxPoll a] = [] := rfl

/-- Only encoded frames are handed over, and the line carries whole copies of them only. -/
structure Machine.State.TransmitPathSound (s : State) : Prop where
  frames : s.FramesEncoded
  transmitter : s.TransmitterSound
  line : s.LineWhole

/-- The part of the state that a frame passes through. -/
def Machine.State.transmitPath (s : State) :
    Params × GradeCode × Frame × Bool × Bool × Option Frame × Option Frame × List Segment × List Frame :=
  (s.params, s.cfgMode, s.frame, s.frameValid, s.txLoaded, s.txf, s.txfNext, s.line, loadsOf s.hist)

/-- An operation that leaves the transmit path as it was keeps it sound. -/
theorem Machine.State.TransmitPathSound.of_path_eq {s t : State} (hs : s.TransmitPathSound)
    (h : t.transmitPath = s.transmitPath) : t.TransmitPathSound := by
  simp only [State.transmitPath, Prod.mk.injEq] at h
  obtain ⟨hparams, hmode, hframe, hvalid, hloaded, htxf, hnext, hline, hloads⟩ := h
  obtain ⟨hframes, htransmitter, hwhole⟩ := hs
  refine ⟨?_, ?_, ?_⟩
  · simpa only [State.FramesEncoded, State.Encoded, hparams, hmode, hframe, hvalid, hloads] using hframes
  · simpa only [State.TransmitterSound, State.lastHeld, hvalid, hloaded, htxf, hnext, hloads] using htransmitter
  · simpa only [State.LineWhole, hline, hloads] using hwhole

/-- A poll writes no part of the transmit path. -/
theorem Machine.transmitPath_pollTelemetry (s : State) : (pollTelemetry s).transmitPath = s.transmitPath := by
  simp [pollTelemetry_eq, State.transmitPath]

/-- An encoded frame may be stored (R26, R27). -/
theorem Machine.State.TransmitPathSound.storeFrame {s : State} (hs : s.TransmitPathSound) {f : Frame}
    (hf : s.Encoded f) : (s.storeFrame f).TransmitPathSound where
  frames := ⟨fun _ => hf, hs.frames.2⟩
  transmitter := by
    obtain ⟨hloaded, -, hlast, htxf⟩ := hs.transmitter
    exact ⟨hloaded, fun _ => rfl, hlast, htxf⟩
  line := hs.line

/-- The frame stored may be handed over: it becomes the last one handed over and the one that waits (R58, R145). -/
theorem Machine.State.TransmitPathSound.handOver {s : State} (hs : s.TransmitPathSound) (hvalid : s.frameValid = true) :
    (txLoad s.frame s).setTxLoaded.TransmitPathSound := by
  obtain ⟨hframe, hloads⟩ := hs.frames
  obtain ⟨-, -, -, htxf⟩ := hs.transmitter
  obtain ⟨fs, hline, hfs⟩ := hs.line
  have hhist : loadsOf (txLoad s.frame s).setTxLoaded.hist = loadsOf s.hist ++ [s.frame] := by simp
  refine ⟨⟨fun _ => hframe hvalid, fun f hf => ?_⟩, ⟨?_, fun _ => hvalid, ?_, fun f hf => ?_⟩,
    fs, hline, fun f hf => ?_⟩
  · rw [hhist, List.mem_append, List.mem_singleton] at hf
    rcases hf with hf | rfl
    · exact hloads f hf
    · exact hframe hvalid
  · simp
  · simp [State.lastHeld]
  · exact hhist ▸ List.mem_append_left _ (htxf f hf)
  · exact hhist ▸ List.mem_append_left _ (hfs f hf)

/-- A copy of a frame handed over may be added to the line (R59). -/
theorem Machine.State.LineWhole.append {s : State} (h : s.LineWhole) {o : Option Frame}
    (ho : ∀ f, o = some f → f ∈ loadsOf s.hist) :
    { s with line := s.line ++ (o.map frameSegments).getD [] }.LineWhole := by
  obtain ⟨fs, hline, hfs⟩ := h
  cases o with
  | none => exact ⟨fs, by simpa using hline, hfs⟩
  | some f =>
    refine ⟨fs ++ [f], by simp [hline], fun g hg => ?_⟩
    rcases List.mem_append.mp hg with hg | hg
    · exact hfs g hg
    · exact ho g (congrArg some (List.mem_singleton.mp hg).symm)

/-- The frame the transceiver holds was handed over. -/
theorem Machine.State.TransmitterSound.lastHeld_mem {s : State} (h : s.TransmitterSound) {f : Frame}
    (hf : s.txfNext.or s.txf = some f) : f ∈ loadsOf s.hist := by
  obtain ⟨-, -, hlast, -⟩ := h
  exact List.mem_of_getLast? (hlast.symm.trans hf)

/-- The frame-boundary step loops the frame handed over last, and sends one copy of it (R58). -/
theorem Machine.State.TransmitPathSound.frameBoundary {s : State} (hs : s.TransmitPathSound) :
    (frameBoundary s).TransmitPathSound := by
  rw [frameBoundary_eq]
  obtain ⟨hloaded, hvalid, hlast, -⟩ := hs.transmitter
  have hheld : ∀ f, s.txfNext.or s.txf = some f → f ∈ loadsOf s.hist := fun f => hs.transmitter.lastHeld_mem
  exact ⟨hs.frames, ⟨hloaded, hvalid, hlast, hheld⟩, hs.line.append hheld⟩

/-- A repeat sends one more copy of the looped frame (R224). -/
theorem Machine.State.TransmitPathSound.frameRepeat {s : State} (hs : s.TransmitPathSound) :
    (frameRepeat s).TransmitPathSound := by
  rw [frameRepeat_eq]
  obtain ⟨-, -, -, htxf⟩ := hs.transmitter
  exact ⟨hs.frames, hs.transmitter, hs.line.append htxf⟩

/-- No command breaks the transmit path. -/
theorem Machine.Effect.transmitPathSound {s t : State} {i : Instr} (h : Effect s i t) (hs : s.TransmitPathSound) :
    t.TransmitPathSound := by
  cases h with
  | result v => exact hs.of_path_eq rfl
  | packet thr => exact hs.of_path_eq rfl
  | badGrade g hg => exact hs.of_path_eq rfl
  | noFrame hv => exact hs.of_path_eq rfl
  | encoded p u hu =>
    have hmarked : s.markIfOff.TransmitPathSound := hs.of_path_eq rfl
    exact (hmarked.storeFrame ⟨p, u, hu, rfl⟩).of_path_eq rfl
  | handedOver hv => exact (hs.handOver hv).of_path_eq rfl
  | sent thr u hu =>
    have hpacket : (s.markIfOff.setPkt (assemblePacket thr s.cfgBidir)).TransmitPathSound := hs.of_path_eq rfl
    have hstored := hpacket.storeFrame ⟨assemblePacket thr s.cfgBidir, u, hu, rfl⟩
    exact (hstored.handOver rfl).of_path_eq rfl
  | polled hb hr => exact hs.of_path_eq (transmitPath_pollTelemetry s)

/-- After a reset nothing has been encoded, handed over or sent (R37). -/
theorem Machine.State.transmitPathSound_resetWith (p : Params) (inp : ResetInputs) :
    (State.resetWith p inp).TransmitPathSound where
  frames := ⟨by simp [State.resetWith], by simp [State.resetWith, loadsOf]⟩
  transmitter := by simp [State.TransmitterSound, State.resetWith, State.lastHeld, loadsOf]
  line := ⟨[], rfl, by simp⟩

/-- Settles O52: each part of a step keeps the transmit path sound. -/
theorem stepKeepsTheTransmitPathSound : Obligations.StepKeepsTheTransmitPathSound := by
  unfold Obligations.StepKeepsTheTransmitPathSound
  intro s t hframes htransmitter hline hstep
  have ht : t.TransmitPathSound := step_keeps
    (taken := fun _ _ _ _ hs => hs.of_path_eq rfl)
    (recorded := fun s w hs => hs.of_path_eq (by simp [State.transmitPath]))
    (performed := fun _ _ _ _ _ _ heffect hs => heffect.transmitPathSound hs)
    (rejected := fun _ _ _ _ _ hs => hs.of_path_eq rfl)
    (boundary := fun _ hs => hs.frameBoundary)
    (again := fun _ hs => hs.frameRepeat)
    (clamped := fun _ _ hs => hs.of_path_eq rfl)
    (returned := fun _ _ hs => hs.of_path_eq rfl)
    (reset := fun s inp _ _ _ _ => (State.transmitPathSound_resetWith s.params inp).of_path_eq rfl)
    hstep ⟨hframes, htransmitter, hline⟩
  exact ⟨ht.frames, ht.transmitter, ht.line⟩

end Sys2Proof
end

