-- ==== Sys2Proof/Proofs/FaultRecord.lean ====
section
/-! PROOFS. FaultRecord.lean: the record of rejections (R92, R201): a rejection adds one record with the cause its word
has, and nothing else writes `ERR_ILLEGAL` or `FAULT`. Settles O53. -/

namespace Sys2Proof

open Sys2Proof.Machine

/-- A word that does not decode has the cause it is rejected for: a word with a defined opcode is no command's (R79,
R80, R201). -/
theorem explained_of_decode_error {w : Word} {c : IllegalCause} (h : decode w = .error c) :
    FaultRecord.Explained ⟨c, w⟩ := by
  obtain ⟨-, rfl⟩ := (decode_error_iff w c).mp h
  unfold illegalCause
  split
  case isTrue hop => exact hop
  case isFalse hop =>
    refine ⟨by simpa using hop, fun i hi => ?_⟩
    have hok : decode w = .ok i := (congrArg decode hi).symm.trans (decode_encode i)
    cases hok.symm.trans h

/-- An operation that leaves `ERR_ILLEGAL` and `FAULT` and takes back no event keeps the record sound. -/
theorem Machine.State.FaultsSound.of_eq {s t : State} (hs : s.FaultsSound) (herr : t.errIllegal = s.errIllegal)
    (hfaults : t.faults = s.faults) (hhist : s.hist ⊆ t.hist) : t.FaultsSound := by
  obtain ⟨hflag, hsorted, hrecords⟩ := hs
  rw [State.FaultsSound, herr, hfaults]
  exact ⟨hflag, hsorted, fun r hr => (hrecords r hr).imp_right (hhist ·)⟩

/-- A rejection for the cause a recorded word has keeps the record sound (R92). -/
theorem Machine.State.FaultsSound.reject {s : State} (hs : s.FaultsSound) {r : FaultRecord} (hr : r.Explained)
    (hword : .command r.word ∈ s.hist) :
    { s with errIllegal := true, faults := insertFault r s.faults }.FaultsSound := by
  obtain ⟨-, hsorted, hrecords⟩ := hs
  refine ⟨by simp, insertFault_pairwise r _ hsorted, fun x hx => ?_⟩
  rcases (mem_insertFault r x s.faults).mp hx with rfl | hx
  · exact ⟨hr, hword⟩
  · exact hrecords x hx

/-- No command breaks the record: `LUT` and `TRANSMIT` record the word that was issued (R104, R145). -/
theorem Machine.Effect.faultsSound {s t : State} {w : Word} {i : Instr} (hd : decode w = .ok i)
    (hword : .command w ∈ s.hist) (h : Effect s i t) (hs : s.FaultsSound) : t.FaultsSound := by
  have hissued : .command (encode i) ∈ s.hist := (encode_of_decode hd).symm ▸ hword
  have hhist : s.hist ⊆ t.hist := h.retains.hist.subset
  cases h
  case badGrade g hg => exact hs.reject ⟨g, hg, rfl⟩ hissued
  case noFrame hv => exact hs.reject (r := ⟨.illNoFrame, encode .transmit⟩) rfl hissued
  -- no other command writes the flag or the set
  all_goals exact hs.of_eq (by simp [pollTelemetry_eq]) (by simp [pollTelemetry_eq]) hhist

/-- After a reset nothing has been rejected (R37). -/
theorem Machine.State.faultsSound_resetWith (p : Params) (inp : ResetInputs) :
    (State.resetWith p inp).FaultsSound := by
  simp [State.FaultsSound, State.resetWith]

/-- Settles O53: each part of a step keeps the record sound. -/
theorem stepKeepsTheFaultRecordSound : Obligations.StepKeepsTheFaultRecordSound := by
  unfold Obligations.StepKeepsTheFaultRecordSound
  intro s t hs hstep
  exact step_keeps
    (taken := fun _ _ _ _ hs => hs.of_eq rfl rfl (List.Subset.refl _))
    (recorded := fun s w hs => hs.of_eq rfl rfl (s.retains_record (.command w)).hist.subset)
    (performed := fun _ _ _ _ hd hword heffect hs => heffect.faultsSound hd hword hs)
    (rejected := fun _ w c hd hword hs => hs.reject (r := ⟨c, w⟩) (explained_of_decode_error hd) hword)
    (boundary := fun s hs => by
      rw [frameBoundary_eq]
      exact hs.of_eq rfl rfl (List.Subset.refl _))
    (again := fun s hs => by
      rw [frameRepeat_eq]
      exact hs.of_eq rfl rfl (List.Subset.refl _))
    (clamped := fun _ _ hs => hs.of_eq rfl rfl (List.Subset.refl _))
    (returned := fun _ _ hs => hs.of_eq rfl rfl (List.Subset.refl _))
    (reset := fun s inp _ _ _ _ => (State.faultsSound_resetWith s.params inp).of_eq rfl rfl (List.Subset.refl _))
    hstep hs

end Sys2Proof
end

