-- ==== Sys2Proof/Proofs/Durations.lean ====
section
/-! PROOFS. Durations.lean: the width of durations (R13, R26): the encoder's frames, a reset's buffer and a poll's
answer fit `DUR_W` bits, and every other duration is a copy of one of these. Settles O54. -/

namespace Sys2Proof

open Sys2Proof.Machine

/-- The part of the state that holds durations. -/
def Machine.State.durations (s : State) :
    Params × Frame × Option Frame × Option Frame × List Segment × List Event :=
  (s.params, s.frame, s.txf, s.txfNext, s.line, s.hist)

/-- An operation that leaves every duration as it was keeps them in width. -/
theorem Machine.State.DurationsFit.of_durations_eq {s t : State} (hs : s.DurationsFit)
    (h : t.durations = s.durations) : t.DurationsFit := by
  simp only [State.durations, Prod.mk.injEq] at h
  obtain ⟨hparams, hframe, htxf, hnext, hline, hhist⟩ := h
  simpa only [State.DurationsFit, hparams, hframe, htxf, hnext, hline, hhist] using hs

/-- An event may be recorded, a poll's answer within the bounds of R60. -/
theorem Machine.State.DurationsFit.record {s : State} (hs : s.DurationsFit) {e : Event}
    (he : ∀ a, e = .rxPoll a → AnswerBounded s.params a) : (s.record e).DurationsFit := by
  obtain ⟨hframe, htxf, hnext, hline, hpolls⟩ := hs
  refine ⟨hframe, htxf, hnext, hline, fun a ha => ?_⟩
  rcases List.mem_append.mp ha with ha | ha
  · exact hpolls a ha
  · exact he a (List.mem_singleton.mp ha).symm

/-- A frame in width may be stored. -/
theorem Machine.State.DurationsFit.storeFrame {s : State} (hs : s.DurationsFit) {f : Frame}
    (hf : f.fits s.params.durW = true) : (s.storeFrame f).DurationsFit := by
  obtain ⟨-, hrest⟩ := hs
  exact ⟨hf, hrest⟩

/-- A frame in width may be handed over. -/
theorem Machine.State.DurationsFit.txLoad {s : State} (hs : s.DurationsFit) {f : Frame}
    (hf : f.fits s.params.durW = true) : (txLoad f s).DurationsFit := by
  obtain ⟨hframe, htxf, -, hline, hpolls⟩ := hs.record (e := .txLoad f) (by simp)
  refine ⟨hframe, htxf, fun g hg => ?_, hline, hpolls⟩
  cases hg
  exact hf

/-- The segments of a frame in width are in width (R59). -/
theorem Machine.ticks_lt_of_mem_frameSegments {w : Nat} {f : Frame} (hf : f.fits w = true) {g : Segment}
    (hg : g ∈ frameSegments f) : g.ticks < 2 ^ w := by
  obtain ⟨y, hy, hgy⟩ := List.mem_flatMap.mp hg
  have hfit : y.fits w = true := List.all_eq_true.mp hf y hy
  obtain ⟨h0, h1⟩ : y.dur0 < 2 ^ w ∧ y.dur1 < 2 ^ w := by simpa [LineSymbol.fits] using hfit
  simp only [symbolSegments, List.mem_cons, List.not_mem_nil, or_false] at hgy
  rcases hgy with rfl | rfl
  · exact h0
  · exact h1

/-- A copy of a frame in width may be added to the line. -/
theorem Machine.State.DurationsFit.appendLine {s : State} (hs : s.DurationsFit) {o : Option Frame}
    (ho : ∀ f, o = some f → f.fits s.params.durW = true) :
    { s with line := s.line ++ (o.map frameSegments).getD [] }.DurationsFit := by
  obtain ⟨hframe, htxf, hnext, hline, hpolls⟩ := hs
  refine ⟨hframe, htxf, hnext, fun g hg => ?_, hpolls⟩
  rcases List.mem_append.mp hg with hg | hg
  · exact hline g hg
  · cases o with
    | none => cases hg
    | some f => exact ticks_lt_of_mem_frameSegments (ho f rfl) hg

/-- The frame-boundary step loops and sends the frame that waits, else the one looped (R58). -/
theorem Machine.State.DurationsFit.frameBoundary {s : State} (hs : s.DurationsFit) :
    (frameBoundary s).DurationsFit := by
  obtain ⟨hframe, htxf, hnext, hline, hpolls⟩ := hs
  have hheld (f : Frame) (hf : s.txfNext.or s.txf = some f) : f.fits s.params.durW = true := by
    rcases Option.or_eq_some_iff.mp hf with hf | ⟨-, hf⟩
    · exact hnext f hf
    · exact htxf f hf
  rw [frameBoundary_eq]
  have hstarted : { s with txf := s.txfNext.or s.txf, txfNext := none }.DurationsFit :=
    ⟨hframe, hheld, by simp, hline, hpolls⟩
  exact hstarted.appendLine hheld

/-- A repeat sends the looped frame once more (R224). -/
theorem Machine.State.DurationsFit.frameRepeat {s : State} (hs : s.DurationsFit) : (frameRepeat s).DurationsFit := by
  rw [frameRepeat_eq]
  have ⟨_, htxf, _⟩ := hs
  exact hs.appendLine htxf

/-- No command breaks the width: an answer is polled within its bounds, and the encoder's frames fit. -/
theorem Machine.Effect.durationsFit {s t : State} {i : Instr} (h : Effect s i t) (hs : s.DurationsFit) :
    t.DurationsFit := by
  cases h with
  | result v => exact hs.of_durations_eq rfl
  | packet thr => exact hs.of_durations_eq rfl
  | badGrade g hg => exact hs.of_durations_eq rfl
  | noFrame hv => exact hs.of_durations_eq rfl
  | encoded p u hu =>
    have hmarked : s.markIfOff.DurationsFit := hs.of_durations_eq rfl
    exact (hmarked.storeFrame (encodeFrame_fits s.params p hu)).of_durations_eq rfl
  | handedOver hv =>
    have ⟨hframe, _⟩ := hs
    exact (hs.txLoad hframe).of_durations_eq rfl
  | sent thr u hu =>
    have hfit := encodeFrame_fits s.params (assemblePacket thr s.cfgBidir) hu
    have hpacket : (s.markIfOff.setPkt (assemblePacket thr s.cfgBidir)).DurationsFit := hs.of_durations_eq rfl
    exact ((hpacket.storeFrame hfit).txLoad hfit).of_durations_eq rfl
  | polled hb hr =>
    have hrecorded : (s.record (.rxPoll (nextAnswer s))).DurationsFit :=
      hs.record fun a ha => Event.rxPoll.inj ha ▸ nextAnswer_bounded s
    exact hrecorded.of_durations_eq (by rw [pollTelemetry_eq]; rfl)

/-- After a reset only the buffer holds durations, taken at their width (R26, R37). -/
theorem Machine.State.durationsFit_resetWith (p : Params) (inp : ResetInputs) :
    (State.resetWith p inp).DurationsFit := by
  simp [State.DurationsFit, State.resetWith]

/-- Settles O54: each part of a step keeps every duration in width. -/
theorem stepKeepsDurationsInWidth : Obligations.StepKeepsDurationsInWidth := by
  unfold Obligations.StepKeepsDurationsInWidth
  intro s t hs hstep
  exact step_keeps
    (taken := fun _ _ _ _ hs => hs.of_durations_eq rfl)
    (recorded := fun _ _ hs => hs.record (by simp))
    (performed := fun _ _ _ _ _ _ heffect hs => heffect.durationsFit hs)
    (rejected := fun _ _ _ _ _ hs => hs.of_durations_eq rfl)
    (boundary := fun _ hs => hs.frameBoundary)
    (again := fun _ hs => hs.frameRepeat)
    (clamped := fun _ _ hs => hs.of_durations_eq rfl)
    (returned := fun _ _ hs => hs.of_durations_eq rfl)
    (reset := fun s inp _ _ _ _ => (State.durationsFit_resetWith s.params inp).of_durations_eq rfl)
    hstep hs

end Sys2Proof
end

