-- ==== Sys2Proof/Proofs/Registers.lean ====
section
/-! PROOFS. Registers.lean: what the registers of the block and of the host may hold (R25, R28, R35, R36): each is
written by few operations, and each of them writes a value of the register's meaning. Settles O55. -/

namespace Sys2Proof

open Sys2Proof.Machine

/-- The four registers hold values of their meanings. -/
structure Machine.State.RegistersSound (s : State) : Prop where
  telemetry : s.TelemetrySound
  packet : s.PacketSound
  offMark : s.OffMarkSound
  host : s.HostSound

/-- The registers, and the configuration and the flag that their meanings refer to. -/
def Machine.State.registers (s : State) : Params × GradeCode × Bool × Bool × Bool × Word × Packet × Throttle :=
  (s.params, s.cfgMode, s.cfgBidir, s.frameValid, s.precondOff, s.lastErpm, s.pkt, s.lastThrottle)

/-- An operation that leaves the registers as they were keeps them sound. -/
theorem Machine.State.RegistersSound.of_registers_eq {s t : State} (hs : s.RegistersSound)
    (h : t.registers = s.registers) : t.RegistersSound := by
  simp only [State.registers, Prod.mk.injEq] at h
  obtain ⟨hparams, hmode, hbidir, hvalid, hoff, herpm, hpkt, hthrottle⟩ := h
  obtain ⟨htelemetry, hpacket, hmark, hhost⟩ := hs
  refine ⟨?_, ?_, ?_, ?_⟩
  · simpa only [State.TelemetrySound, hparams, herpm] using htelemetry
  · simpa only [State.PacketSound, hbidir, hpkt] using hpacket
  · simpa only [State.OffMarkSound, hmode, hvalid, hoff] using hmark
  · simpa only [State.HostSound, hthrottle] using hhost

/-- A value that decodes is a throttle of the band times the scale (R166, R167). -/
theorem Machine.band_of_decodeFrame {scale : Nat} {l : List LineSymbol} {v : Word}
    (h : decodeFrame scale l = some v) :
    ∃ n, Config.thrMin ≤ n ∧ n ≤ Config.thrMax ∧ v = BitVec.ofNat 32 (n * scale) := by
  rw [decodeFrame_eq (Prod.mk.eta (p := decodeBits l)).symm, Option.ite_none_right_eq_some] at h
  obtain ⟨⟨-, -, hmin⟩, hv⟩ := h
  have hmax : (throttleOf (decodeBits l).1).toNat < 2048 := (throttleOf (decodeBits l).1).isLt
  exact ⟨_, hmin, Nat.le_of_lt_succ hmax, (Option.some.inj hv).symm⟩

/-- A poll leaves `LAST_ERPM` a telemetry value (R168, R169). -/
theorem Machine.State.RegistersSound.pollTelemetry {s : State} (hs : s.RegistersSound) :
    (pollTelemetry s).RegistersSound := by
  rw [pollTelemetry_eq]
  cases hdec : (nextAnswer s).bind (decodeFrame s.params.erpmScale) with
  | none => exact hs.of_registers_eq rfl
  | some v =>
    obtain ⟨l, -, hv⟩ := Option.bind_eq_some_iff.mp hdec
    exact { hs with telemetry := .inr (band_of_decodeFrame hv) }

/-- An assembled packet may be written (R125, R126). -/
theorem Machine.State.RegistersSound.setPkt {s : State} (hs : s.RegistersSound) (thr : Throttle) :
    (s.setPkt (assemblePacket thr s.cfgBidir)).RegistersSound :=
  { hs with packet := .inr ⟨thr, rfl⟩ }

/-- Encoding sets `FRAME_VALID`, and the mark in OFF mode alone (R143, R144). -/
theorem Machine.State.RegistersSound.encode {s : State} (hs : s.RegistersSound) (f : Frame) :
    (s.markIfOff.storeFrame f).RegistersSound := by
  refine { hs with offMark := ?_ }
  have hmark : s.precondOff = (s.frameValid && s.cfgMode == 0) := hs.offMark
  have hstored : (s.precondOff || s.cfgMode == 0) = (true && s.cfgMode == 0) := by
    rw [hmark]
    cases s.frameValid <;> simp
  exact hstored

/-- The host keeps a clamped throttle (R181). -/
theorem Machine.State.RegistersSound.clamped {s : State} (hs : s.RegistersSound) (r : BitVec 16) :
    (s.setLastThrottle (clampThrottle r)).RegistersSound := by
  refine { hs with host := .inr ?_ }
  rw [State.setLastThrottle_lastThrottle, clampThrottle_toNat]
  exact Nat.le_max_left _ _

/-- No command breaks the registers. -/
theorem Machine.Effect.registersSound {s t : State} {i : Instr} (h : Effect s i t) (hs : s.RegistersSound) :
    t.RegistersSound := by
  cases h with
  | result v => exact hs.of_registers_eq rfl
  | packet thr => exact (hs.setPkt thr).of_registers_eq rfl
  | badGrade g hg => exact hs.of_registers_eq rfl
  | noFrame hv => exact hs.of_registers_eq rfl
  | encoded p u hu => exact (hs.encode (encodeFrame s.params.pauseBits p u)).of_registers_eq rfl
  | handedOver hv => exact hs.of_registers_eq rfl
  | sent thr u hu =>
    have hencoded := (hs.setPkt thr).encode (encodeFrame s.params.pauseBits (assemblePacket thr s.cfgBidir) u)
    exact hencoded.of_registers_eq rfl
  | polled hb hr => exact hs.pollTelemetry.of_registers_eq rfl

/-- A reset leaves each register at its reset value (R37). -/
theorem Machine.State.registersSound_resetWith (p : Params) (inp : ResetInputs) :
    (State.resetWith p inp).RegistersSound :=
  ⟨.inl rfl, .inl rfl, rfl, .inl rfl⟩

/-- Settles O55: each part of a step keeps the registers sound. -/
theorem stepKeepsTheRegistersMeaningful : Obligations.StepKeepsTheRegistersMeaningful := by
  unfold Obligations.StepKeepsTheRegistersMeaningful
  intro s t htelemetry hpacket hmark hhost hstep
  have ht : t.RegistersSound := step_keeps
    (taken := fun _ _ _ _ hs => hs.of_registers_eq rfl)
    (recorded := fun _ _ hs => hs.of_registers_eq rfl)
    (performed := fun _ _ _ _ _ _ heffect hs => heffect.registersSound hs)
    (rejected := fun _ _ _ _ _ hs => hs.of_registers_eq rfl)
    (boundary := fun s hs => by
      rw [frameBoundary_eq]
      exact hs.of_registers_eq rfl)
    (again := fun s hs => by
      rw [frameRepeat_eq]
      exact hs.of_registers_eq rfl)
    (clamped := fun _ r hs => hs.clamped r)
    (returned := fun _ _ hs => hs.of_registers_eq rfl)
    (reset := fun s inp _ _ _ _ => (State.registersSound_resetWith s.params inp).of_registers_eq rfl)
    hstep ⟨htelemetry, hpacket, hmark, hhost⟩
  exact ⟨ht.telemetry, ht.packet, ht.offMark, ht.host⟩

end Sys2Proof
end

