-- ==== Sys2Proof/Proofs/Noninterference.lean ====
section
/-! PROOFS. Noninterference.lean: what a step does not read. Two states are related when they agree on what the machine
reads; when every operation a step is made of keeps a relation, so does the step. One relation leaves the model's marks
open (R35), the other the contents of an unwritten frame buffer (R37). Settles O56 and O57. -/

namespace Sys2Proof

open Sys2Proof.Machine

/-! ### Relations that a step keeps -/

/-- Two outcomes of one kind: related next states, or one refusal. -/
inductive Machine.OutcomeRel (R : State → State → Prop) : Outcome → Outcome → Prop
  | next {s t : State} (h : R s t) : OutcomeRel R (.next s) (.next t)
  | refused (r : Refusal) : OutcomeRel R (.refused r) (.refused r)

/-- The part of the state that both relations below fix: everything but the frame buffer and the model's marks. -/
def Machine.State.readPart (s : State) : State :=
  { s with frame := Vector.replicate 17 zeroSymbol, faults := [], precondOff := false, hist := [] }

/-- Related states are read alike, and every operation takes related states to related states. -/
structure Machine.Unread (R : State → State → Prop) : Prop where
  readPart : ∀ {s t}, R s t → t.readPart = s.readPart
  setRes : ∀ {s t}, R s t → ∀ v, R (s.setRes v) (t.setRes v)
  setPkt : ∀ {s t}, R s t → ∀ p, R (s.setPkt p) (t.setPkt p)
  markIfOff : ∀ {s t}, R s t → R s.markIfOff t.markIfOff
  storeFrame : ∀ {s t}, R s t → ∀ f, R (s.storeFrame f) (t.storeFrame f)
  handOver : ∀ {s t}, R s t → s.frameValid = true → R (txLoad s.frame s).setTxLoaded (txLoad t.frame t).setTxLoaded
  rxPoll : ∀ {s t}, R s t → R (rxPoll s) (rxPoll t)
  setLastErpm : ∀ {s t}, R s t → ∀ v, R (s.setLastErpm v) (t.setLastErpm v)
  record : ∀ {s t}, R s t → ∀ e, R (s.record e) (t.record e)
  raiseIllegal : ∀ {s t}, R s t → ∀ c w, OutcomeRel R (raiseIllegal c w s) (raiseIllegal c w t)
  setInputs : ∀ {s t}, R s t → ∀ is, R (s.setInputs is) (t.setInputs is)
  setLastThrottle : ∀ {s t}, R s t → ∀ thr, R (s.setLastThrottle thr) (t.setLastThrottle thr)
  setHostResult : ∀ {s t}, R s t → ∀ v, R (s.setHostResult v) (t.setHostResult v)
  frameBoundary : ∀ {s t}, R s t → R (frameBoundary s) (frameBoundary t)
  frameRepeat : ∀ {s t}, R s t → R (frameRepeat s) (frameRepeat t)
  resetInstance : ∀ {s t}, R s t → ∀ inp, OutcomeRel R (resetInstance inp s) (resetInstance inp t)

section unread

variable {R : State → State → Prop} {s t : State}

theorem Machine.OutcomeRel.exists_next {o : Outcome} (h : OutcomeRel R (.next s) o) : ∃ t, o = .next t ∧ R s t := by
  cases h with
  | next h => exact ⟨_, rfl, h⟩

theorem Machine.OutcomeRel.eq_refused {o : Outcome} {r : Refusal} (h : OutcomeRel R (.refused r) o) :
    o = .refused r := by
  cases h with
  | refused => rfl

/-- Related outcomes go on to related outcomes. -/
theorem Machine.OutcomeRel.andThen {o o' : Outcome} {k : State → Outcome} (h : OutcomeRel R o o')
    (hk : ∀ {s t}, R s t → OutcomeRel R (k s) (k t)) : OutcomeRel R (andThen o k) (andThen o' k) := by
  cases h with
  | next h => exact hk h
  | refused r => exact .refused r

/-- What is a function of the part that is read is equal in related states. -/
theorem Machine.Unread.read {α : Type} (hR : Unread R) (h : R s t) (f : State → α) (hf : ∀ u, f u = f u.readPart) :
    f t = f s := by
  rw [hf t, hf s, hR.readPart h]

/-- `DECODE`'s poll gets one answer from related states (R60). -/
theorem Machine.Unread.pollTelemetry (hR : Unread R) (h : R s t) : R (pollTelemetry s) (pollTelemetry t) := by
  have hanswer : nextAnswer t = nextAnswer s := hR.read h nextAnswer fun _ => rfl
  have hparams : t.params = s.params := hR.read h State.params fun _ => rfl
  have herpm : t.lastErpm = s.lastErpm := hR.read h State.lastErpm fun _ => rfl
  rw [pollTelemetry_eq, pollTelemetry_eq, hanswer, hparams, herpm]
  exact hR.setLastErpm (hR.rxPoll h) _

/-- `LAST_ERPM` is copied alike. -/
theorem Machine.Unread.copyErpm (hR : Unread R) (h : R s t) : R (s.setRes s.lastErpm) (t.setRes t.lastErpm) := by
  have herpm : t.lastErpm = s.lastErpm := hR.read h State.lastErpm fun _ => rfl
  exact herpm ▸ hR.setRes h _

/-- Every command does the same to related states. -/
theorem Machine.Unread.exec (hR : Unread R) (h : R s t) (i : Instr) : OutcomeRel R (exec i s) (exec i t) := by
  have hparams : t.params = s.params := hR.read h State.params fun _ => rfl
  have hmode : t.cfgMode = s.cfgMode := hR.read h State.cfgMode fun _ => rfl
  have hbidir : t.cfgBidir = s.cfgBidir := hR.read h State.cfgBidir fun _ => rfl
  have hpresent : t.cfgRxPresent = s.cfgRxPresent := hR.read h State.cfgRxPresent fun _ => rfl
  have hvalid : t.frameValid = s.frameValid := hR.read h State.frameValid fun _ => rfl
  have hstatus : t.status = s.status := hR.read h State.status fun _ => rfl
  cases i with
  | nop => exact .next h
  | csum d p => exact .next (hR.setRes h _)
  | verify k p => exact .next (hR.setRes h _)
  | assemble thr =>
    simp only [Machine.exec, execAssemble, hbidir]
    exact .next (hR.setRes (hR.setPkt h _) _)
  | lut g =>
    simp only [Machine.exec, execLut]
    cases profile g with
    | none => exact hR.raiseIllegal h _ _
    | some u => exact .next (hR.setRes h _)
  | encode p =>
    simp only [Machine.exec, execEncode, hmode, hparams]
    cases profile s.cfgMode with
    | none => exact .refused _
    | some u => exact .next (hR.setRes (hR.storeFrame (hR.markIfOff h) _) _)
  | transmit =>
    simp only [Machine.exec, execTransmit, hvalid]
    cases hv : s.frameValid with
    | true => exact .next (hR.setRes (hR.handOver h hv) _)
    | false => exact hR.raiseIllegal h _ _
  | send thr =>
    simp only [Machine.exec, execSend, hmode, hparams, hbidir]
    cases profile s.cfgMode with
    | none => exact .refused _
    | some u => exact .next (hR.setRes (hR.handOver (hR.storeFrame (hR.setPkt (hR.markIfOff h) _) _) rfl) _)
  | decode =>
    simp only [Machine.exec, execDecode, hbidir, hpresent]
    cases s.cfgBidir && s.cfgRxPresent with
    | true => exact .next (hR.copyErpm (hR.pollTelemetry h))
    | false => exact .next (hR.copyErpm h)
  | readErpm => exact .next (hR.copyErpm h)
  | readStatus =>
    simp only [Machine.exec, execReadStatus, hstatus]
    exact .next (hR.setRes h _)

/-- Every word does the same to related states. -/
theorem Machine.Unread.issue (hR : Unread R) (h : R s t) (w : Word) : OutcomeRel R (issue w s) (issue w t) := by
  unfold Machine.issue
  cases decode w with
  | ok i => exact hR.exec (hR.record h _) i
  | error c => exact hR.raiseIllegal (hR.record h _) c w

/-- `getERPM` returns the same from related states. -/
theorem Machine.Unread.callGetERPM (hR : Unread R) (h : R s t) : OutcomeRel R (callGetERPM s) (callGetERPM t) := by
  refine (hR.issue h _).andThen fun {u v} huv => ?_
  have hres : v.res = u.res := hR.read huv State.res fun _ => rfl
  exact hres ▸ .next (hR.setHostResult huv _)

/-- `getMotorRPM` returns the same from related states. -/
theorem Machine.Unread.callGetMotorRPM (hR : Unread R) (h : R s t) (m : BitVec 8) :
    OutcomeRel R (callGetMotorRPM m s) (callGetMotorRPM m t) := by
  refine (hR.callGetERPM h).andThen fun {u v} huv => ?_
  have hresult : v.hostResult = u.hostResult := hR.read huv State.hostResult fun _ => rfl
  exact hresult ▸ .next (hR.setHostResult huv _)

/-- Every input does the same to related states. -/
theorem Machine.Unread.applyInput (hR : Unread R) (h : R s t) (i : Input) :
    OutcomeRel R (applyInput i s) (applyInput i t) := by
  cases i with
  | command w => exact hR.issue h w
  | frameBoundary => exact .next (hR.frameBoundary h)
  | frameRepeat => exact .next (hR.frameRepeat h)
  | setThrottle r =>
    have hlast : t.lastThrottle = s.lastThrottle := hR.read h State.lastThrottle fun _ => rfl
    simp only [Machine.applyInput, callSetThrottle, hlast]
    split
    · exact .next h
    · exact hR.issue (hR.setLastThrottle h _) _
  | getERPM => exact hR.callGetERPM h
  | getMotorRPM m => exact hR.callGetMotorRPM h m
  | reset inp => exact hR.resetInstance h inp

/-- Every step does the same to related states. -/
theorem Machine.Unread.step (hR : Unread R) (h : R s t) : OutcomeRel R (step s) (step t) := by
  have hmode : t.cfgMode = s.cfgMode := hR.read h State.cfgMode fun _ => rfl
  have hinputs : t.inputs = s.inputs := hR.read h State.inputs fun _ => rfl
  simp only [Machine.step, advance, hmode, hinputs]
  cases modeReserved s.cfgMode with
  | true => exact .refused _
  | false =>
    cases s.inputs with
    | nil => exact .next (hR.frameBoundary h)
    | cons i rest => exact hR.applyInput (hR.setInputs h rest) i

end unread

/-! ### The model's marks -/

/-- The state with the model's marks clear. -/
def Machine.State.unmarked (s : State) : State := { s with faults := [], precondOff := false, hist := [] }

/-- The two states differ in `FAULT`, `PRECOND_OFF` and `HIST` alone. -/
def Machine.SameButMarks (s t : State) : Prop := t.unmarked = s.unmarked

/-- An operation whose other effects do not depend on the marks. -/
theorem Machine.SameButMarks.map {s t : State} {op : State → State} (h : SameButMarks s t)
    (hop : ∀ u, (op u).unmarked = (op u.unmarked).unmarked) : SameButMarks (op s) (op t) := by
  rw [SameButMarks, hop t, hop s, h]

/-- Equal but for the marks is equal with the marks of the one put into the other. -/
theorem Machine.SameButMarks.eq {s t : State} (h : SameButMarks s t) :
    t = { s with faults := t.faults, precondOff := t.precondOff, hist := t.hist } :=
  calc t = { t.unmarked with faults := t.faults, precondOff := t.precondOff, hist := t.hist } := rfl
    _ = { s.unmarked with faults := t.faults, precondOff := t.precondOff, hist := t.hist } := by rw [h]

/-- No operation reads the marks but to write them (R35). -/
theorem Machine.unread_marks : Unread SameButMarks where
  readPart {s t} h := (congrArg State.readPart h : t.unmarked.readPart = s.unmarked.readPart)
  setRes h v := h.map (op := (·.setRes v)) fun _ => rfl
  setPkt h p := h.map (op := (·.setPkt p)) fun _ => rfl
  markIfOff h := h.map (op := State.markIfOff) fun _ => rfl
  storeFrame h f := h.map (op := (·.storeFrame f)) fun _ => rfl
  handOver h _ := h.map (op := fun u => (txLoad u.frame u).setTxLoaded) fun _ => rfl
  rxPoll h := h.map (op := rxPoll) fun _ => rfl
  setLastErpm h v := h.map (op := (·.setLastErpm v)) fun _ => rfl
  record h e := h.map (op := (·.record e)) fun _ => rfl
  raiseIllegal h c w := .next (h.map
    (op := fun u => { u with errIllegal := true, faults := insertFault ⟨c, w⟩ u.faults }) fun _ => rfl)
  setInputs h is := h.map (op := (·.setInputs is)) fun _ => rfl
  setLastThrottle h thr := h.map (op := (·.setLastThrottle thr)) fun _ => rfl
  setHostResult h v := h.map (op := (·.setHostResult v)) fun _ => rfl
  frameBoundary h := h.map fun u => by rw [frameBoundary_eq, frameBoundary_eq]; rfl
  frameRepeat h := h.map fun u => by rw [frameRepeat_eq, frameRepeat_eq]; rfl
  resetInstance {s t} h inp := by
    unfold Machine.resetInstance
    split
    · exact .refused _
    · exact .next (h.map (op := fun u => { State.resetWith u.params inp with
        inputs := u.inputs, rxTape := u.rxTape, rxDraws := u.rxDraws, rxChannel := u.rxChannel }) fun _ => rfl)

/-- Settles O56: no operation reads the marks, so no step does. -/
theorem modelMarksAreNeverRead : Obligations.ModelMarksAreNeverRead := by
  unfold Obligations.ModelMarksAreNeverRead
  intro s fl off h
  have hstep : OutcomeRel SameButMarks (step s) (step { s with faults := fl, precondOff := off, hist := h }) :=
    unread_marks.step rfl
  refine ⟨fun t ht => ?_, fun r hr => ?_⟩
  · rw [ht] at hstep
    obtain ⟨u, hu, htu⟩ := hstep.exists_next
    exact ⟨u.faults, u.precondOff, u.hist, hu.trans (congrArg _ htu.eq)⟩
  · rw [hr] at hstep
    exact hstep.eq_refused

/-! ### The unwritten frame buffer -/

/-- The state with other contents of `FRAME`. -/
def Machine.State.withFrame (f : Frame) (s : State) : State := { s with frame := f }

/-- The two states are equal, or differ in an unwritten `FRAME` alone, which is `f` in the second. -/
def Machine.SameButFrame (f : Frame) (s t : State) : Prop := t = s ∨ s.frameValid = false ∧ t = s.withFrame f

/-- An operation that neither reads nor writes `FRAME` and `FRAME_VALID`. -/
theorem Machine.SameButFrame.map {f : Frame} {s t : State} {op : State → State} (h : SameButFrame f s t)
    (hvalid : ∀ u, (op u).frameValid = u.frameValid) (hop : ∀ u, op (u.withFrame f) = (op u).withFrame f) :
    SameButFrame f (op s) (op t) := by
  rcases h with rfl | ⟨hv, rfl⟩
  · exact .inl rfl
  · exact .inr ⟨(hvalid s).trans hv, hop s⟩

/-- An operation that overwrites `FRAME`. -/
theorem Machine.SameButFrame.overwrite {f : Frame} {s t : State} {op : State → State} (h : SameButFrame f s t)
    (hop : ∀ u, op (u.withFrame f) = op u) : SameButFrame f (op s) (op t) := by
  rcases h with rfl | ⟨-, rfl⟩
  · exact .inl rfl
  · exact .inl (hop s)

/-- Only a hand-over reads `FRAME`, and it takes a frame that was written (R37, R145). -/
theorem Machine.unread_unwrittenFrame (f : Frame) : Unread (SameButFrame f) where
  readPart h := by
    rcases h with rfl | ⟨-, rfl⟩
    · rfl
    · rfl
  setRes h v := h.map (op := (·.setRes v)) (fun _ => rfl) fun _ => rfl
  setPkt h p := h.map (op := (·.setPkt p)) (fun _ => rfl) fun _ => rfl
  markIfOff h := h.map (op := State.markIfOff) (fun _ => rfl) fun _ => rfl
  storeFrame h g := h.overwrite (op := (·.storeFrame g)) fun _ => rfl
  handOver h hvalid := by
    rcases h with rfl | ⟨hunwritten, -⟩
    · exact .inl rfl
    · cases hvalid.symm.trans hunwritten
  rxPoll h := h.map (op := rxPoll) (fun _ => rfl) fun _ => rfl
  setLastErpm h v := h.map (op := (·.setLastErpm v)) (fun _ => rfl) fun _ => rfl
  record h e := h.map (op := (·.record e)) (fun _ => rfl) fun _ => rfl
  raiseIllegal h c w := .next (h.map
    (op := fun u => { u with errIllegal := true, faults := insertFault ⟨c, w⟩ u.faults }) (fun _ => rfl) fun _ => rfl)
  setInputs h is := h.map (op := (·.setInputs is)) (fun _ => rfl) fun _ => rfl
  setLastThrottle h thr := h.map (op := (·.setLastThrottle thr)) (fun _ => rfl) fun _ => rfl
  setHostResult h v := h.map (op := (·.setHostResult v)) (fun _ => rfl) fun _ => rfl
  frameBoundary h := h.map (fun u => by rw [frameBoundary_eq]) fun u => by
    rw [frameBoundary_eq, frameBoundary_eq]; rfl
  frameRepeat h := h.map (fun u => by rw [frameRepeat_eq]) fun u => by rw [frameRepeat_eq, frameRepeat_eq]; rfl
  resetInstance {s t} h inp := by
    unfold Machine.resetInstance
    split
    · exact .refused _
    · exact .next (h.overwrite (op := fun u => { State.resetWith u.params inp with
        inputs := u.inputs, rxTape := u.rxTape, rxDraws := u.rxDraws, rxChannel := u.rxChannel }) fun _ => rfl)

/-- Settles O57: no operation reads an unwritten frame, so no step does. -/
theorem unwrittenFrameIsNeverRead : Obligations.UnwrittenFrameIsNeverRead := by
  unfold Obligations.UnwrittenFrameIsNeverRead
  intro s t f hvalid ht
  have hstep : OutcomeRel (SameButFrame f) (step s) (step { s with frame := f }) :=
    (unread_unwrittenFrame f).step (.inr ⟨hvalid, rfl⟩)
  rw [ht] at hstep
  obtain ⟨u, hu, rfl | ⟨hv, rfl⟩⟩ := hstep.exists_next
  · exact .inl hu
  · exact .inr ⟨hv, hu⟩

end Sys2Proof
end

