-- ==== Sys2Proof/Proofs/PacketsAndFrames.lean ====
section
/-! PROOFS. PacketsAndFrames.lean: the commands that build packets and frames (R131, R144, R146), the time a frame takes
on the line (R148), and `LOAD` against `SEND` (R86). Settles O19, O20, O22, O24 and O25. -/

namespace Sys2Proof

open Sys2Proof.Machine

/-! ### Packets -/

/-- The checksum field of an assembled packet folds its other nibbles in the packet's polarity (R121, R126). -/
theorem Machine.extractLsb'_assemblePacket_checksum (thr : Throttle) (b : Bool) :
    (assemblePacket thr b).extractLsb' 0 4 =
      ((assemblePacket thr b).extractLsb' 4 4 ^^^ (assemblePacket thr b).extractLsb' 8 4 ^^^
        (assemblePacket thr b).extractLsb' 12 4) ^^^ (if b then 0xF#4 else 0x0#4) := by
  rw [← checksum_dataOf, ← (verifyPacket_iff _ _).mp (verifyPacket_assemblePacket thr b), checksumOf]

/-- `ASSEMBLE` in one equation (R131). -/
theorem Machine.exec_assemble (thr : Throttle) (s : State) :
    exec (.assemble thr) s = .next { s with
      pkt := assemblePacket thr s.cfgBidir
      res := zext (assemblePacket thr s.cfgBidir) } := rfl

/-- Settles O19: the packet is the assembler's, whose fields are known. -/
theorem assembleWritesThePacket : Obligations.AssembleWritesThePacket := by
  unfold Obligations.AssembleWritesThePacket
  exact fun thr s => ⟨_, exec_assemble thr s, throttleOf_assemblePacket thr _, telemetryOf_assemblePacket thr _,
    extractLsb'_assemblePacket_checksum thr _⟩

/-! ### Frames -/

/-- Entry `i` below 16 of an encoded frame, field by field (R140). -/
theorem Machine.encodeFrame_data (pb : Nat) (p : Packet) (t : TimingProfile) (i : Nat) (h : i < 16) :
    (encodeFrame pb p t)[i].level0 = .high ∧ (encodeFrame pb p t)[i].level1 = .low ∧
      (encodeFrame pb p t)[i].dur0 = (if p.getLsbD (15 - i) then t.hi1 else t.hi0) ∧
      (encodeFrame pb p t)[i].dur1 = t.tpb - (if p.getLsbD (15 - i) then t.hi1 else t.hi0) := by
  rw [encodeFrame_getElem pb p t i h]
  exact ⟨rfl, rfl, rfl, rfl⟩

/-- Settles O20: the frame is the encoder's, whose entries are known. -/
theorem encodeBuildsTheFrame : Obligations.EncodeBuildsTheFrame := by
  unfold Obligations.EncodeBuildsTheFrame
  intro p s hmode
  obtain ⟨t, ht⟩ := exists_profile hmode
  exact ⟨t, _, ht, exec_encode ht p, encodeFrame_data _ p t, encodeFrame_getElem_pause _ p t⟩

/-- Settles O24: packet and frame are those of `ASSEMBLE` and `ENCODE`. -/
theorem sendAssemblesEncodesAndHandsOver : Obligations.SendAssemblesEncodesAndHandsOver := by
  unfold Obligations.SendAssemblesEncodesAndHandsOver
  intro thr s hmode
  obtain ⟨t, ht⟩ := exists_profile hmode
  exact ⟨t, _, _, ht, exec_send ht thr, throttleOf_assemblePacket thr _, telemetryOf_assemblePacket thr _,
    extractLsb'_assemblePacket_checksum thr _, encodeFrame_data _ _ t, encodeFrame_getElem_pause _ _ t⟩

/-! ### The time a frame takes -/

/-- One transmission is two segments for each of the seventeen symbols (R59). -/
theorem Machine.length_frameSegments (f : Frame) : (frameSegments f).length = 34 := by
  simp [frameSegments, symbolSegments, List.length_flatMap]

/-- The ticks of the segments are the durations of the symbols (R53). -/
theorem Machine.sum_ticks_flatMap_symbolSegments (l : List LineSymbol) :
    ((l.flatMap symbolSegments).map Segment.ticks).sum = (l.map fun y => y.dur0 + y.dur1).sum := by
  induction l with
  | nil => rfl
  | cons y ys ih =>
    rw [List.flatMap_cons, List.map_append, List.sum_append, ih]
    simp [symbolSegments, Nat.add_assoc]

/-- A transmission lasts sixteen bit periods and the pause (R148). -/
theorem Machine.sum_ticks_encodeFrame (pb : Nat) (p : Packet) {t : TimingProfile} (h0 : t.hi0 ≤ t.tpb)
    (h1 : t.hi1 ≤ t.tpb) : ((frameSegments (encodeFrame pb p t)).map Segment.ticks).sum = t.tpb * (16 + pb) := by
  rw [frameSegments, sum_ticks_flatMap_symbolSegments, encodeFrame_toList, List.map_append, List.map_map,
    List.sum_append]
  simp only [Function.comp_def, dataSymbol_ticks t _ h0 h1, List.map_const', List.sum_replicate, List.length_range]
  simp [pauseSymbol, Nat.mul_add, Nat.mul_comm]

/-- Settles O22: every data symbol lasts one bit period, since no high time is longer. -/
theorem transmissionHasTheGradeTiming : Obligations.TransmissionHasTheGradeTiming := by
  unfold Obligations.TransmissionHasTheGradeTiming
  intro g t pb p _ ht
  obtain ⟨h01, h1, -⟩ := profile_ordered ht
  have h0 : t.hi0 ≤ t.tpb := h01.trans h1
  refine ⟨length_frameSegments _, sum_ticks_encodeFrame pb p h0 h1, fun i hi => ?_, ?_⟩
  · rw [encodeFrame_getElem pb p t i hi]
    exact ⟨rfl, dataSymbol_ticks t _ h0 h1⟩
  · rw [encodeFrame_getElem_pause]
    rfl

/-! ### `LOAD` and `SEND` -/

/-- The packet of `ENCODE`'s operand is what `ASSEMBLE` left in `RES` (R86). -/
theorem Machine.pkt16Field_zext (p : Packet) : pkt16Field (zext p) = p := by
  refine BitVec.eq_of_getLsbD_eq fun i hi => ?_
  simp [pkt16Field, zext, hi, show i < 32 by omega]

/-- `LOAD` in one equation: the packet, its frame, the hand-over, and 17 in `RES` (R86). -/
theorem Machine.loadSequence_eq {s : State} {t : TimingProfile} (h : profile s.cfgMode = some t) (thr : Throttle) :
    loadSequence thr s = .next { s with
      pkt := assemblePacket thr s.cfgBidir
      frame := encodeFrame s.params.pauseBits (assemblePacket thr s.cfgBidir) t
      frameValid := true
      precondOff := s.precondOff || s.cfgMode == 0
      txfNext := some (encodeFrame s.params.pauseBits (assemblePacket thr s.cfgBidir) t)
      hist := s.hist ++ [.command (encode (.assemble thr))]
        ++ [.command (encode (.encode (assemblePacket thr s.cfgBidir)))] ++ [.command (encode .transmit)]
        ++ [.txLoad (encodeFrame s.params.pauseBits (assemblePacket thr s.cfgBidir) t)]
      txLoaded := true
      res := 17 } := by
  rw [loadSequence, issue_encode _ _ (decode_encode _), exec_assemble, andThen_next]
  simp only [State.record_cfgBidir, pkt16Field_zext]
  rw [issue_encode _ _ (decode_encode _), exec_encode (by exact h), andThen_next, issue_encode _ _ (decode_encode _),
    exec_transmit rfl]
  rfl

/-- Settles O25: both end with the packet of the throttle, its frame and the hand-over of it. -/
theorem loadEndsAsSend : Obligations.LoadEndsAsSend := by
  unfold Obligations.LoadEndsAsSend
  intro thr s hmode
  obtain ⟨t, ht⟩ := exists_profile hmode
  have hsend := (issue_encode (.send thr) s (decode_encode _)).trans (exec_send (by exact ht) thr)
  exact ⟨_, _, hsend, loadSequence_eq ht thr, rfl, rfl, rfl, rfl, rfl, rfl, rfl, rfl, rfl⟩

end Sys2Proof
end

