-- ==== Sys2Proof/Proofs/StepRules.lean ====
section
/-! PROOFS. StepRules.lean: the step around a command (R90): it runs what the word decodes to, rejects precisely (R92),
always completes, keeps the configuration (R20 to R22), and records at most one command with one hand-over or poll
(R35). Settles O7, O8, O9, O49 and O51. -/

namespace Sys2Proof

open Sys2Proof.Machine

/-! ### Issuing a word -/

/-- Issuing a word that decodes performs its command, with the word recorded (R90). -/
theorem Machine.issue_of_decode_ok {w : Word} {i : Instr} (h : decode w = .ok i) (s : State) :
    issue w s = exec i (s.record (.command w)) := by
  simp [issue, h]

/-- Settles O7: the step issues the word, and issuing performs the command. -/
theorem stepRunsTheDecodedCommand : Obligations.StepRunsTheDecodedCommand := by
  unfold Obligations.StepRunsTheDecodedCommand
  exact fun s w i rest hm hin hd => (step_of_input hm hin).trans (issue_of_decode_ok hd _)

/-- Settles O8: each of the three rejections is one equation, and `LUT` and `TRANSMIT` record the word issued. -/
theorem rejectionIsPrecise : Obligations.RejectionIsPrecise := by
  unfold Obligations.RejectionIsPrecise
  intro s w rest hm hin hcause
  have hstep : step s = issue w (s.setInputs rest) := step_of_input hm hin
  rcases hcause with ⟨c, hc⟩ | ⟨g, hg, hd⟩ | ⟨hd, hv⟩
  · exact ⟨c, hstep.trans (issue_of_decode_error hc _)⟩
  · obtain rfl := encode_of_decode hd
    exact ⟨.illGrade, hstep.trans ((issue_of_decode_ok hd _).trans (exec_lut_reserved hg _))⟩
  · obtain rfl := encode_of_decode hd
    exact ⟨.illNoFrame, hstep.trans ((issue_of_decode_ok hd _).trans (exec_transmit_noFrame (by exact hv)))⟩

/-! ### Completion -/

/-- `setThrottle` completes from a defined grade (R182). -/
theorem Machine.callSetThrottle_completes {s : State} (h : modeReserved s.cfgMode = false) (r : BitVec 16) :
    ∃ t, callSetThrottle r s = .next t := by
  by_cases hc : clampThrottle r = s.lastThrottle
  case pos => exact ⟨s, callSetThrottle_unchanged hc⟩
  case neg =>
    rw [callSetThrottle_changed hc]
    exact exec_completes (by exact h) _

/-- Every input completes from a defined grade, but for a reset to a reserved one (R90, R222). -/
theorem Machine.applyInput_completes {s : State} (h : modeReserved s.cfgMode = false) (i : Input)
    (hreset : ∀ inp, i = .reset inp → modeReserved inp.mode = false) : ∃ t, applyInput i s = .next t := by
  obtain ⟨t, ht⟩ := exec_completes (s := s.record (.command (encode .decode))) h .decode
  cases i with
  | command w => exact issue_completes h w
  | frameBoundary => exact ⟨_, rfl⟩
  | frameRepeat => exact ⟨_, rfl⟩
  | setThrottle r => exact callSetThrottle_completes h r
  | getERPM => exact ⟨_, callGetERPM_of_decode ht⟩
  | getMotorRPM m => exact ⟨_, callGetMotorRPM_of_decode m ht⟩
  | reset inp => exact ⟨_, if_neg (Bool.eq_false_iff.mp (hreset inp rfl))⟩

/-- Settles O9: the idle step and every input complete. -/
theorem everyStepCompletes : Obligations.EveryStepCompletes := by
  unfold Obligations.EveryStepCompletes
  intro s hm hreset
  cases hin : s.inputs with
  | nil => exact ⟨_, step_idle hm hin⟩
  | cons i rest =>
    rw [step_of_input hm hin]
    exact applyInput_completes (s := s.setInputs rest) hm i fun inp hi => hreset inp rest (hi ▸ hin)

/-! ### The configuration -/

/-- The parameters, the receive channel and the configuration (R8, R20 to R22, R211). -/
def Machine.State.setup (s : State) : Params × Nat × GradeCode × Bool × Bool :=
  (s.params, s.rxChannel, s.cfgMode, s.cfgBidir, s.cfgRxPresent)

/-- No command changes the setup. -/
theorem Machine.Effect.setup_eq {s t : State} {i : Instr} (h : Effect s i t) : t.setup = s.setup := by
  cases h <;> simp [State.setup, pollTelemetry_eq]

/-- No word changes the setup. -/
theorem Machine.issue_setup_eq {w : Word} {s t : State} (h : issue w s = .next t) : t.setup = s.setup := by
  rcases issue_cases h with ⟨i, -, hexec⟩ | ⟨c, -, rfl⟩
  · exact (exec_effect hexec).setup_eq
  · rfl

/-- A move keeps the setup, or it is a reset, which samples a defined grade and the two other inputs (R220, R222). -/
theorem Machine.Move.setup_cases {s t : State} (h : Move s t) : t.setup = s.setup ∨
    ∃ inp rest, s.inputs = .reset inp :: rest ∧ modeReserved inp.mode = false ∧
      t.setup = (s.params, s.rxChannel, inp.mode, inp.bidir, inp.rxPresent) := by
  cases h with
  | idle hin => exact .inl (by rw [frameBoundary_eq]; rfl)
  | command w rest hin _ hi => exact .inl (issue_setup_eq hi :)
  | boundary rest hin => exact .inl (by rw [frameBoundary_eq]; rfl)
  | again rest hin => exact .inl (by rw [frameRepeat_eq]; rfl)
  | throttleKept r rest hin hc => exact .inl rfl
  | throttleSent r rest hin hc _ hi => exact .inl (issue_setup_eq hi :)
  | telemetry i rest hin hi u hd v => exact .inl (issue_setup_eq hd :)
  | reset inp rest hin hm => exact .inr ⟨inp, rest, hin, hm, rfl⟩

/-- Settles O49: only a reset samples a configuration, and only a legal one. -/
theorem configurationIsImmutable : Obligations.ConfigurationIsImmutable := by
  unfold Obligations.ConfigurationIsImmutable
  intro s t hstep
  obtain ⟨hmode, hmove⟩ := step_move hstep
  rcases hmove.setup_cases with hsetup | ⟨inp, rest, hin, hinp, hsetup⟩
  all_goals
    simp only [State.setup, Prod.mk.injEq] at hsetup
    obtain ⟨hparams, hchannel, hcfgMode, hbidir, hpresent⟩ := hsetup
  · exact ⟨hparams, hchannel, fun _ => ⟨hcfgMode ▸ hmode, params_legal _⟩, fun _ => ⟨hcfgMode, hbidir, hpresent⟩⟩
  · refine ⟨hparams, hchannel, fun _ => ⟨hcfgMode ▸ hinp, params_legal _⟩, fun hno => ?_⟩
    cases hno _ rest hin

/-! ### The history -/

/-- What is appended to the history of `s`: the command of word `w`, then at most one hand-over or poll. -/
def Machine.State.RecordsCommand (s : State) (w : Word) (t : State) : Prop :=
  t.hist = s.hist ++ [Event.command w] ∨
    (∃ f, t.hist = s.hist ++ [Event.command w, Event.txLoad f] ∧ t.txfNext = some f ∧ t.frame = f) ∨
    ∃ a, t.hist = s.hist ++ [Event.command w, Event.rxPoll a] ∧ s.cfgBidir = true ∧ s.cfgRxPresent = true

/-- A command whose word was just recorded adds one hand-over or poll at most (R58, R60). -/
theorem Machine.Effect.recordsCommand {s t : State} {w : Word} {i : Instr} (h : Effect (s.record (.command w)) i t) :
    s.RecordsCommand w t := by
  cases h
  case handedOver hv => exact .inr (.inl ⟨s.frame, by simp⟩)
  case sent thr u hu => exact .inr (.inl ⟨encodeFrame s.params.pauseBits (assemblePacket thr s.cfgBidir) u, by simp⟩)
  case polled hb hr => exact .inr (.inr ⟨nextAnswer (s.record (.command w)), by simp [pollTelemetry_eq], hb, hr⟩)
  -- no other command records anything
  all_goals exact .inl (by simp)

/-- Issuing a word records it, and one hand-over or poll at most. -/
theorem Machine.issue_recordsCommand {w : Word} {s t : State} (h : issue w s = .next t) : s.RecordsCommand w t := by
  rcases issue_cases h with ⟨i, -, hexec⟩ | ⟨c, -, rfl⟩
  · exact (exec_effect hexec).recordsCommand
  · exact .inl rfl

/-- Settles O51: a move that issues a word records that command, and no other move but a reset writes the history. -/
theorem stepsRecordOneCommandAtMost : Obligations.StepsRecordOneCommandAtMost := by
  unfold Obligations.StepsRecordOneCommandAtMost
  intro s t hstep hno
  cases (step_move hstep).2 with
  | idle hin => exact .inl (by rw [frameBoundary_eq])
  | command w rest hin _ hi => exact .inr ⟨w, (issue_recordsCommand hi :)⟩
  | boundary rest hin => exact .inl (by rw [frameBoundary_eq]; rfl)
  | again rest hin => exact .inl (by rw [frameRepeat_eq]; rfl)
  | throttleKept r rest hin hc => exact .inl rfl
  | throttleSent r rest hin hc _ hi => exact .inr ⟨_, (issue_recordsCommand hi :)⟩
  | telemetry i rest hin hi u hd v => exact .inr ⟨_, (issue_recordsCommand hd :)⟩
  | reset inp rest hin hm => cases hno _ rest hin

end Sys2Proof
end

