-- ==== Sys2Proof/Proofs/Transceiver.lean ====
section
/-! PROOFS. Transceiver.lean: the transceiver's two steps and what the line carries after each (R58, R59, R224), and
which inputs touch the transceiver at all (R226). Settles O39 and O40. -/

namespace Sys2Proof

open Sys2Proof.Machine

/-! ### The transceiver's steps -/

/-- The frame-boundary step, listed by the outside or taken with nothing pending (R58, R94). -/
theorem Machine.step_frameBoundary {s : State} {rest : List Input} (hm : modeReserved s.cfgMode = false)
    (h : s.inputs = .frameBoundary :: rest ∨ s.inputs = [] ∧ rest = []) :
    step s = .next (frameBoundary (s.setInputs rest)) := by
  rcases h with hin | ⟨hin, rfl⟩
  · exact step_of_input hm hin
  · rw [step_idle hm hin, show s.setInputs [] = s by rw [← hin]; rfl]

/-- With a frame waiting, the boundary step loops it and sends one copy of it (R58). -/
theorem Machine.frameBoundary_of_next {s : State} {g : Frame} (h : s.txfNext = some g) : frameBoundary s = { s with
    txf := some g
    txfNext := none
    line := s.line ++ frameSegments g } := by
  simp [frameBoundary_eq, h]

/-- With none waiting, the boundary step is one more copy of the looped frame (R58). -/
theorem Machine.frameBoundary_of_none {s : State} (h : s.txfNext = none) : frameBoundary s = frameRepeat s := by
  simp only [frameBoundary, startNext, h, frameRepeat]

/-- One more copy of the looped frame (R59, R224). -/
theorem Machine.frameRepeat_of_some {s : State} {g : Frame} (h : s.txf = some g) :
    frameRepeat s = { s with line := s.line ++ frameSegments g } := by
  simp [frameRepeat_eq, h]

/-- With no frame nothing is sent (R59). -/
theorem Machine.frameRepeat_of_none {s : State} (h : s.txf = none) : frameRepeat s = s := by
  simp only [frameRepeat, carryFrame, h]

/-- Settles O39: the boundary step by what waits, the repeat by what is looped. -/
theorem frameBoundaryCarriesOneWholeFrame : Obligations.FrameBoundaryCarriesOneWholeFrame := by
  unfold Obligations.FrameBoundaryCarriesOneWholeFrame
  refine fun s rest hm => ⟨fun hin => ?_, fun hin => ?_⟩
  · have hstep := step_frameBoundary hm hin
    refine ⟨fun g hg => ?_, fun g hnext hg => ?_, fun hnext hg => ?_⟩
    · exact hstep.trans (congrArg _ (frameBoundary_of_next (by exact hg)))
    · exact hstep.trans (congrArg _
        ((frameBoundary_of_none (by exact hnext)).trans (frameRepeat_of_some (by exact hg))))
    · exact hstep.trans (congrArg _
        ((frameBoundary_of_none (by exact hnext)).trans (frameRepeat_of_none (by exact hg))))
  · have hstep : step s = .next (frameRepeat (s.setInputs rest)) := step_of_input hm hin
    exact ⟨fun g hg => hstep.trans (congrArg _ (frameRepeat_of_some (by exact hg))),
      fun hg => hstep.trans (congrArg _ (frameRepeat_of_none (by exact hg)))⟩

/-! ### Who touches the transceiver -/

/-- No command touches the frame being looped or the line, and two commands hand a frame over (R226). -/
theorem Machine.Effect.transceiver {s t : State} {i : Instr} (h : Effect s i t) :
    t.txf = s.txf ∧ t.line = s.line ∧ (t.txfNext = s.txfNext ∨ i = .transmit ∨ ∃ thr, i = .send thr) := by
  cases h
  case handedOver hv => exact ⟨by simp, by simp, .inr (.inl rfl)⟩
  case sent thr u hu => exact ⟨by simp, by simp, .inr (.inr ⟨thr, rfl⟩)⟩
  all_goals simp [pollTelemetry_eq]

/-- What issuing a word can do to the transceiver. -/
theorem Machine.issue_transceiver {w : Word} {s t : State} (h : issue w s = .next t) :
    t.txf = s.txf ∧ t.line = s.line ∧
      (t.txfNext = s.txfNext ∨ decode w = .ok .transmit ∨ ∃ thr, decode w = .ok (.send thr)) := by
  rcases issue_cases h with ⟨i, hd, hexec⟩ | ⟨c, -, rfl⟩
  · obtain ⟨htxf, hline, hnext⟩ := (exec_effect hexec).transceiver
    refine ⟨htxf, hline, hnext.imp_right ?_⟩
    rintro (rfl | ⟨thr, rfl⟩)
    · exact .inl hd
    · exact .inr ⟨thr, hd⟩
  · exact ⟨rfl, rfl, .inl rfl⟩

/-- Settles O40: by the move, whose words hand a frame over at most. -/
theorem onlyHandOverChangesTheTransceiver : Obligations.OnlyHandOverChangesTheTransceiver := by
  unfold Obligations.OnlyHandOverChangesTheTransceiver
  intro s t hstep
  cases (step_move hstep).2 with
  | idle hin => exact ⟨fun _ => .inl hin, fun _ => .inl hin, fun _ => .inl hin⟩
  | command w rest hin _ hi =>
    obtain ⟨htxf, hline, hnext⟩ := issue_transceiver hi
    exact ⟨fun hne => .inr ⟨_, rest, hin, .inr (.inr (.inr ⟨w, rfl, hnext.resolve_left hne⟩))⟩,
      fun hne => absurd htxf hne, fun hne => absurd hline hne⟩
  | boundary rest hin =>
    exact ⟨fun _ => .inr ⟨_, rest, hin, .inl rfl⟩, fun _ => .inr ⟨_, rest, hin, .inl rfl⟩,
      fun _ => .inr ⟨_, rest, hin, .inl rfl⟩⟩
  | again rest hin =>
    rw [frameRepeat_eq]
    exact ⟨fun hne => absurd rfl hne, fun hne => absurd rfl hne, fun _ => .inr ⟨_, rest, hin, .inr (.inl rfl)⟩⟩
  | throttleKept r rest hin hc =>
    exact ⟨fun hne => absurd rfl hne, fun hne => absurd rfl hne, fun hne => absurd rfl hne⟩
  | throttleSent r rest hin hc _ hi =>
    obtain ⟨htxf, hline, -⟩ := issue_transceiver hi
    exact ⟨fun _ => .inr ⟨_, rest, hin, .inr (.inl ⟨r, rfl⟩)⟩, fun hne => absurd htxf hne, fun hne => absurd hline hne⟩
  | telemetry i rest hin hi u hd v =>
    obtain ⟨htxf, hline, hnext⟩ := issue_transceiver hd
    have hkept : u.txfNext = s.txfNext := by simpa [decode_encode] using hnext
    exact ⟨fun hne => absurd hkept hne, fun hne => absurd htxf hne, fun hne => absurd hline hne⟩
  | reset inp rest hin hm =>
    exact ⟨fun _ => .inr ⟨_, rest, hin, .inr (.inr (.inl ⟨inp, rfl⟩))⟩,
      fun _ => .inr ⟨_, rest, hin, .inr ⟨inp, rfl⟩⟩, fun _ => .inr ⟨_, rest, hin, .inr (.inr ⟨inp, rfl⟩)⟩⟩

end Sys2Proof
end

