-- ==== Sys2Proof/Proofs/HostUse.lean ====
section
/-! PROOFS. HostUse.lean: what a host that acts through its procedures alone may rely on (R186): `setThrottle` in one
statement, and `PKT` in step with the throttle sent last. Settles O42, O44 and O45. -/

namespace Sys2Proof

open Sys2Proof.Machine

/-- No request clamps to the reset value of the last throttle (R180, R181). -/
theorem Machine.clampThrottle_ne_zero (r : BitVec 16) : clampThrottle r ≠ 0 := by
  intro h
  have hclamp := clampThrottle_toNat r
  rw [h, show (0 : Throttle).toNat = 0 from rfl] at hclamp
  omega

/-- After `setThrottle` the clamped request is the last throttle. The call kept the packet when it was so before, and
sent a new one, handing one frame over, when it was not (R182). -/
theorem Machine.callSetThrottle_spec {s : State} (hm : modeReserved s.cfgMode = false) (r : BitVec 16) :
    ∃ t, callSetThrottle r s = .next t ∧ t.lastThrottle = clampThrottle r ∧ t.inputs = s.inputs ∧
      t.cfgMode = s.cfgMode ∧ (loadsOf t.hist).length ≤ (loadsOf s.hist).length + 1 ∧
      (s.lastThrottle = clampThrottle r ∧ t.pkt = s.pkt ∨ t.pkt = assemblePacket (clampThrottle r) s.cfgBidir) := by
  by_cases hc : clampThrottle r = s.lastThrottle
  case pos => exact ⟨s, callSetThrottle_unchanged hc, hc.symm, rfl, rfl, Nat.le_succ _, .inl ⟨hc.symm, rfl⟩⟩
  case neg =>
    obtain ⟨p, hp⟩ := exists_profile hm
    have hsend := (callSetThrottle_changed hc).trans (exec_send (by exact hp) _)
    exact ⟨_, hsend, rfl, rfl, rfl, by simp [loadsOf], .inr rfl⟩

/-- Settles O42: after the first call the request is the last throttle, so the second does nothing. -/
theorem setThrottleIsIdempotent : Obligations.SetThrottleIsIdempotent := by
  unfold Obligations.SetThrottleIsIdempotent
  intro s r rest hm hin
  obtain ⟨t, ht, hlast, hinputs, hmode, hloads, -⟩ :=
    callSetThrottle_spec (s := s.setInputs (.setThrottle r :: rest)) hm r
  refine ⟨t, (step_of_input hm hin).trans ht, ?_, hloads⟩
  exact (step_of_input (hmode ▸ hm) hinputs).trans (callSetThrottle_unchanged hlast.symm)

/-- An operation that leaves `PKT`, `CFG_BIDIR` and the last throttle keeps them in step. -/
theorem Machine.State.HostInStep.of_eq {s t : State} (hs : s.HostInStep)
    (h : (t.pkt, t.cfgBidir, t.lastThrottle) = (s.pkt, s.cfgBidir, s.lastThrottle)) : t.HostInStep := by
  simp only [Prod.mk.injEq] at h
  obtain ⟨hpkt, hbidir, hlast⟩ := h
  rwa [State.HostInStep, hpkt, hbidir, hlast]

/-- The telemetry calls' `DECODE` keeps the packet in step (R183). -/
theorem Machine.State.HostInStep.decode {s t : State} (hs : s.HostInStep)
    (h : issue (encode .decode) s = .next t) : t.HostInStep := by
  rw [issue_encode _ _ (decode_encode _)] at h
  cases exec_effect h with
  | result v => exact hs.of_eq rfl
  | polled hb hr => exact hs.of_eq (by rw [pollTelemetry_eq]; rfl)

/-- Settles O44: `SEND` brings packet and throttle in step, and the other moves of a host write neither. -/
theorem hostOnlyUseKeepsThePacketInStep : Obligations.HostOnlyUseKeepsThePacketInStep := by
  unfold Obligations.HostOnlyUseKeepsThePacketInStep
  intro s t hs hhost hstep
  obtain ⟨hm, hmove⟩ := step_move hstep
  cases hmove with
  | idle hin => exact hs.of_eq (by rw [frameBoundary_eq])
  | command w rest hin => cases hhost _ rest hin
  | boundary rest hin => exact hs.of_eq (by rw [frameBoundary_eq]; rfl)
  | again rest hin => exact hs.of_eq (by rw [frameRepeat_eq]; rfl)
  | throttleKept r rest hin hc => exact hs.of_eq rfl
  | throttleSent r rest hin hc _ hi =>
    obtain ⟨p, hp⟩ := exists_profile hm
    rw [issue_encode _ _ (decode_encode _), exec_send (by exact hp)] at hi
    cases hi
    exact .inr rfl
  | telemetry i rest hin hi u hd v =>
    have htaken : (s.setInputs rest).HostInStep := hs.of_eq rfl
    exact (htaken.decode hd).of_eq rfl
  | reset inp rest hin => cases hhost _ rest hin

/-- Settles O45: a throttle within the clamp is not the reset value, so `PKT` is its packet whether the call sends it or
finds it sent. -/
theorem setThrottleLeavesItsPacket : Obligations.SetThrottleLeavesItsPacket := by
  unfold Obligations.SetThrottleLeavesItsPacket
  intro s r rest hm hs hin
  obtain ⟨t, ht, hlast, -, -, -, hpkt⟩ := callSetThrottle_spec (s := s.setInputs rest) hm r
  have hpacket : t.pkt = assemblePacket (clampThrottle r) s.cfgBidir := by
    rcases hpkt with ⟨hsame, hkept⟩ | hsent
    · have hsame' : s.lastThrottle = clampThrottle r := hsame
      exact hkept.trans (hsame' ▸ hs.resolve_left (hsame' ▸ clampThrottle_ne_zero r))
    · exact hsent
  have hthrottle : t.pkt.extractLsb' 5 11 = clampThrottle r := hpacket ▸ throttleOf_assemblePacket _ _
  refine ⟨t, (step_of_input hm hin).trans ht, ?_, hpacket ▸ telemetryOf_assemblePacket _ _, hlast.trans hthrottle.symm⟩
  rw [hthrottle, clampThrottle_toNat]

end Sys2Proof
end

