-- ==== Sys2Proof/Proofs/BitRecovery.lean ====
section
/-! PROOFS. BitRecovery.lean: what the decoder recovers from a received list: the bits of the good symbols at its start,
sixteen at most (R160, R163, R164), and what `DECODE` does with the answer of its poll (R169). Settles O27 to O30, O35
and O36. -/

namespace Sys2Proof

open Sys2Proof.Machine

/-! ### The run of good symbols -/

theorem Machine.highThenLow_iff {y : LineSymbol} : highThenLow y = true ↔ y.level0 = .high ∧ y.level1 = .low := by
  simp [highThenLow]

/-- The (high, low) symbols before the first other one, sixteen at most. -/
def goodRun (l : List LineSymbol) : List LineSymbol := (l.take 16).takeWhile highThenLow

/-- A run of at most sixteen good symbols is taken in whole, when it is followed by nothing or by another symbol
(R160). -/
theorem Machine.decodeBits_run (l rest : List LineSymbol) (hl : l.length ≤ 16) (hgood : ∀ y ∈ l, highThenLow y = true)
    (hrest : ∀ y ∈ rest.head?, highThenLow y = false) : decodeBits (l ++ rest) = (shiftIn l 0, l.length) := by
  rw [decodeBits, scanBits_append l rest 0 0 hgood (by omega), Nat.zero_add]
  cases rest with
  | nil => rfl
  | cons y ys => exact scanBits_bad y ys _ _ (hrest y rfl)

/-- The decoder recovers the bits of the run of good symbols (R160, R163). -/
theorem Machine.decodeBits_eq_goodRun (l : List LineSymbol) :
    decodeBits l = (shiftIn (goodRun l) 0, (goodRun l).length) := by
  have hlen : (goodRun l).length ≤ 16 := (List.takeWhile_prefix _).length_le.trans (List.length_take_le 16 l)
  rw [← decodeBits_take, ← List.takeWhile_append_dropWhile (p := highThenLow) (l := l.take 16)]
  refine decodeBits_run _ _ hlen (fun y hy => List.mem_takeWhile_imp hy) fun y hy => ?_
  have hhead := List.head?_dropWhile_not highThenLow (l.take 16)
  rw [Option.mem_def.mp hy] at hhead
  exact hhead

/-- When the first symbols are all good, they are the run. -/
theorem goodRun_of_good {l : List LineSymbol} (h : ∀ y ∈ l.take 16, highThenLow y = true) : goodRun l = l.take 16 :=
  List.takeWhile_eq_self_iff.mpr h

/-- The run is shorter than sixteen exactly when the list is, or one of its first sixteen symbols is not good. -/
theorem length_goodRun_lt_iff (l : List LineSymbol) :
    (goodRun l).length < 16 ↔ l.length < 16 ∨ ∃ y ∈ l.take 16, highThenLow y = false := by
  have hlen : (l.take 16).length ≤ 16 := List.length_take_le 16 l
  by_cases hgood : ∀ y ∈ l.take 16, highThenLow y = true
  case pos =>
    have hnone : ¬∃ y ∈ l.take 16, highThenLow y = false := fun ⟨y, hy, hbad⟩ => by simp [hgood y hy] at hbad
    rw [goodRun_of_good hgood, List.length_take, or_iff_left hnone]
    omega
  case neg =>
    have hbad : ∃ y ∈ l.take 16, highThenLow y = false := by simpa using hgood
    have hprefix : goodRun l <+: l.take 16 := List.takeWhile_prefix _
    have hne : (goodRun l).length ≠ (l.take 16).length := fun h =>
      hgood (List.takeWhile_eq_self_iff.mp (hprefix.eq_of_length h))
    have hle := hprefix.length_le
    exact iff_of_true (by omega) (.inr hbad)

/-! ### The statements on lists -/

/-- Settles O27: the first sixteen symbols are the run, shifted in from the most significant bit down. -/
theorem decoderReadsMostSignificantFirst : Obligations.DecoderReadsMostSignificantFirst := by
  unfold Obligations.DecoderReadsMostSignificantFirst
  intro l hl hgood
  have hrun : goodRun l = l.take 16 := goodRun_of_good fun y hy => highThenLow_iff.mpr (hgood y hy)
  have hlen : (l.take 16).length = 16 := by rw [List.length_take]; omega
  rw [decodeBits_eq_goodRun, hrun]
  refine ⟨hlen, fun i hi h16 => ?_⟩
  rw [getLsbD_shiftIn _ _ _ (by omega), dif_pos (by omega)]
  simp [hlen, show 15 - (15 - i) = i by omega]

/-- Settles O28: the run ends at the other symbol as it ends at the list's end. -/
theorem decoderStopsAtWrongPolarity : Obligations.DecoderStopsAtWrongPolarity := by
  unfold Obligations.DecoderStopsAtWrongPolarity
  intro l rest y hl hgood hbad
  have hgood' : ∀ x ∈ l, highThenLow x = true := fun x hx => highThenLow_iff.mpr (hgood x hx)
  have hbad' : highThenLow y = false := Bool.eq_false_iff.mpr (mt highThenLow_iff.mp hbad)
  have halone : decodeBits l = (shiftIn l 0, l.length) := by
    simpa using decodeBits_run l [] hl hgood' (by simp)
  rw [decodeBits_run l (y :: rest) hl hgood' (by simpa using hbad'), halone]
  exact ⟨rfl, rfl⟩

/-- Settles O29: the bits are those of the first sixteen symbols, and the decode reads nothing else. -/
theorem trailerIsNotRead : Obligations.TrailerIsNotRead := by
  unfold Obligations.TrailerIsNotRead
  intro l scale
  exact ⟨(decodeBits_take l).symm, by simp only [decodeFrame, decodeBits_take]⟩

/-- Settles O30: the count is the length of the run, and the decode wants sixteen. -/
theorem shortFramesFail : Obligations.ShortFramesFail := by
  unfold Obligations.ShortFramesFail
  intro l scale
  rw [decodeFrame_eq (decodeBits_eq_goodRun l), decodeBits_eq_goodRun]
  refine ⟨?_, fun hlt => if_neg fun hfull => by omega⟩
  simp only [length_goodRun_lt_iff, ← highThenLow_iff, Bool.not_eq_true]

/-! ### `DECODE` -/

/-- `DECODE` without a receiver, in one equation (R169). -/
theorem Machine.exec_decode_noPoll {s : State} (h : s.cfgBidir = false ∨ s.cfgRxPresent = false) :
    exec .decode s = .next { s with res := s.lastErpm } := by
  have hno : (s.cfgBidir && s.cfgRxPresent) = false := Bool.and_eq_false_iff.mpr h
  simp only [exec, execDecode, hno]
  rfl

/-- Settles O35: without a receiver there is no poll. -/
theorem decodeWithoutReceiverDoesNotPoll : Obligations.DecodeWithoutReceiverDoesNotPoll := by
  unfold Obligations.DecodeWithoutReceiverDoesNotPoll
  exact fun s => exec_decode_noPoll

/-- Settles O36: the answer is the next of the tape where it is within the bounds, and one within them always. -/
theorem decodePollsOnce : Obligations.DecodePollsOnce := by
  unfold Obligations.DecodePollsOnce
  intro s hb hr
  refine ⟨nextAnswer s, nextAnswer_bounded s, fun b rest htape hbound => ?_, ?_⟩
  · exact (nextAnswer_of_cons htape).trans (boundAnswer_of_bounded hbound)
  · simp only [exec_decode hb hr, List.isEmpty_iff]

end Sys2Proof
end

