-- ==== Sys2Proof/Proofs/Reset.lean ====
section
/-! PROOFS. Reset.lean: what a reset leaves (R37, R220), that a reset while running leaves a fresh state (R207), and
that every invariant holds after it. Settles O46 to O48. -/

namespace Sys2Proof

open Sys2Proof.Machine

/-- Settles O46: each register as the reset's table gives it; the buffer at its width is the buffer found, when that
fits. -/
theorem resetLeavesTheStatedValues : Obligations.ResetLeavesTheStatedValues := by
  unfold Obligations.ResetLeavesTheStatedValues
  rintro p inp _ rfl
  exact ⟨rfl, rfl, rfl, rfl, rfl, rfl, frame_fits_toWidth p.durW inp.frame, frame_toWidth_of_fits, rfl, rfl, rfl, rfl,
    rfl, rfl, rfl, rfl, rfl, rfl⟩

/-- A reset to a defined grade, in one equation (R220). -/
theorem Machine.resetInstance_defined {inp : ResetInputs} (h : modeReserved inp.mode = false) (s : State) :
    resetInstance inp s = .next { State.resetWith s.params inp with
      inputs := s.inputs, rxTape := s.rxTape, rxDraws := s.rxDraws, rxChannel := s.rxChannel } :=
  if_neg (Bool.eq_false_iff.mp h)

/-- Settles O47: the step of a reset input is the reset. -/
theorem resetReplacesTheInstance : Obligations.ResetReplacesTheInstance := by
  unfold Obligations.ResetReplacesTheInstance
  exact fun s inp rest hm hinp hin => (step_of_input hm hin).trans (resetInstance_defined hinp _)

/-- A symbol of no duration fits every width. -/
theorem Machine.zeroSymbol_fits (w : Nat) : zeroSymbol.fits w = true := by
  simp [LineSymbol.fits, zeroSymbol]

/-- Settles O48: each invariant's own lemma about a reset. -/
theorem resetMeetsTheInvariants : Obligations.ResetMeetsTheInvariants := by
  unfold Obligations.ResetMeetsTheInvariants
  refine ⟨fun p inp hinp => ?_, params_legal, by decide, ?_⟩
  · have hpath := State.transmitPathSound_resetWith p inp
    have hregisters := State.registersSound_resetWith p inp
    exact ⟨⟨hinp, params_legal p⟩, State.durationsFit_resetWith p inp, hpath.frames, hpath.transmitter, hpath.line,
      State.faultsSound_resetWith p inp, hregisters.telemetry, hregisters.packet, hregisters.offMark, hregisters.host,
      .inl rfl, rfl, rfl⟩
  · simp [Frame.fits, ResetInputs.named, zeroSymbol_fits]

end Sys2Proof
end

