-- ==== Sys2Proof/Proofs/Platform.lean ====
section
/-! PROOFS. Platform.lean: what stands around one block: several machines side by side (R211), and a bus that carries a
word in four bytes (R51, R54). Settles O58 and O59. -/

namespace Sys2Proof

open Sys2Proof.Machine

/-! ### Machines side by side -/

/-- A step of place `k` moves the machine there, on channel `k`, or nothing when the place is empty (R211). -/
theorem Machine.stepInstance_cases {k : Nat} {fleet fleet' : List State} (h : stepInstance k fleet = .next fleet') :
    fleet[k]? = none ∧ fleet' = fleet ∨
      ∃ s t, fleet[k]? = some s ∧ step (s.onChannel k) = .next t ∧ fleet' = fleet.set k t := by
  unfold stepInstance at h
  cases hs : fleet[k]? with
  | none =>
    simp only [hs] at h
    cases h
    exact .inl ⟨rfl, rfl⟩
  | some s =>
    simp only [hs] at h
    cases ht : step (s.onChannel k) with
    | next t =>
      simp only [ht] at h
      cases h
      exact .inr ⟨s, t, rfl, ht, rfl⟩
    | fault r => cases r
    | refused r => simp [ht] at h

/-- No step changes the receive channel (R211). -/
theorem Machine.rxChannel_of_step {s t : State} (h : step s = .next t) : t.rxChannel = s.rxChannel := by
  obtain ⟨-, hchannel, -⟩ := configurationIsImmutable s t h
  exact hchannel

/-- Settles O58: the list of machines is written in place `k` alone. -/
theorem instancesAreIndependent : Obligations.InstancesAreIndependent := by
  unfold Obligations.InstancesAreIndependent
  intro fleet fleet' k h
  rcases stepInstance_cases h with ⟨hnone, rfl⟩ | ⟨s, t, hs, hstep, rfl⟩
  · refine ⟨rfl, fun _ _ => rfl, fun s t hs => ?_⟩
    cases hnone.symm.trans hs
  · refine ⟨List.length_set, fun j hj => List.getElem?_set_ne hj.symm, fun s' t' hs' ht' => ?_⟩
    obtain rfl : s = s' := Option.some.inj (hs.symm.trans hs')
    have hk : k < fleet.length := (List.getElem?_eq_some_iff.mp hs).1
    obtain rfl : t = t' := Option.some.inj ((List.getElem?_set_self hk).symm.trans ht')
    exact ⟨hstep, rxChannel_of_step hstep⟩

/-! ### The bus -/

/-- Big order is little order with the four offsets reversed (R51). -/
theorem Machine.busWord_big (b0 b1 b2 b3 : Byte) : busWord .big b0 b1 b2 b3 = busWord .little b3 b2 b1 b0 := rfl

theorem Machine.busByte_big (w : Word) (k : Nat) : busByte .big w k = busByte .little w (3 - k) := rfl

/-- In little order offset `k` holds bits `8k` to `8k + 7` (R51). -/
theorem Machine.getLsbD_busByte_little (w : Word) (k : Nat) {j : Nat} (hj : j < 8) :
    (busByte .little w k).getLsbD j = w.getLsbD (8 * k + j) := by
  simp [busByte, hj]

/-- A bit of the word put together in little order is a bit of the byte whose eight bits it is among (R54). -/
theorem Machine.getLsbD_busWord_little (b : Nat → Byte) {i : Nat} (hi : i < 32) :
    (busWord .little (b 0) (b 1) (b 2) (b 3)).getLsbD i = (b (i / 8)).getLsbD (i % 8) := by
  simp only [busWord, BitVec.getLsbD_or, getLsbD_place]
  interval_cases i <;> simp

/-- The bytes of a word in little order assemble to it. -/
theorem Machine.busWord_busByte_little (w : Word) :
    busWord .little (busByte .little w 0) (busByte .little w 1) (busByte .little w 2) (busByte .little w 3) = w := by
  refine BitVec.eq_of_getLsbD_eq fun i hi => ?_
  rw [getLsbD_busWord_little (busByte .little w) hi, getLsbD_busByte_little w _ (by omega), Nat.div_add_mod]

/-- The byte at each offset of the word put together in little order is the one it was put together from. -/
theorem Machine.busByte_busWord_little (b : Nat → Byte) {k : Nat} (hk : k < 4) :
    busByte .little (busWord .little (b 0) (b 1) (b 2) (b 3)) k = b k := by
  refine BitVec.eq_of_getLsbD_eq fun j hj => ?_
  rw [getLsbD_busByte_little _ k hj, getLsbD_busWord_little b (by omega), show (8 * k + j) / 8 = k by omega,
    show (8 * k + j) % 8 = j by omega]

/-- Settles O59: in little order bit by bit, and in big order by reversing the offsets. -/
theorem busBytesAssembleToTheWord : Obligations.BusBytesAssembleToTheWord := by
  unfold Obligations.BusBytesAssembleToTheWord
  refine ⟨fun e w => ?_, fun w k j hk hj => ⟨getLsbD_busByte_little w k hj, ?_⟩, fun b0 b1 b2 b3 =>
    ⟨busByte_busWord_little (fun k => [b0, b1, b2, b3].getD k 0) (k := 0) (by decide),
      busByte_busWord_little (fun k => [b3, b2, b1, b0].getD k 0) (k := 3) (by decide)⟩⟩
  · cases e with
    | little => exact busWord_busByte_little w
    | big => exact (busWord_big _ _ _ _).trans (busWord_busByte_little w)
  · rw [busByte_big, getLsbD_busByte_little w _ hj, show 8 * (3 - k) + j = 24 - 8 * k + j by omega]

end Sys2Proof
end

