-- ==== Sys2Proof/Proofs/Assembler.lean ====
section
/-! PROOFS. Assembler.lean: the assembler writes the word of a line's command when every operand fits its field, and
nothing when one does not (R85, R86). Settles O60. -/

namespace Sys2Proof

open Sys2Proof.Machine

/-- An operand that fits a field keeps its value in it. -/
theorem toNat_ofNat_of_fits {w n : Nat} (h : n < 2 ^ w) : (BitVec.ofNat w n).toNat = n :=
  (BitVec.toNat_ofNat n w).trans (Nat.mod_eq_of_lt h)

/-- A polarity operand keeps its value. -/
theorem toNat_beq_one {p : Nat} (h : p < 2) : (p == 1).toNat = p := by
  interval_cases p <;> rfl

/-- A line whose operands fit is written as a word that decodes to the line's command (R84, R85). -/
theorem Machine.assembleLine_decodes {l : AsmLine} {i : Instr} (hfits : l.wellFormed = true)
    (hi : lineInstr l = some i) : assembleLine l = some (encode i) ∧ decode (encode i) = .ok i :=
  ⟨by rw [assembleLine, if_pos hfits, hi, Option.map_some], decode_encode i⟩

/-- A line with an operand that does not fit is refused (R85). -/
theorem Machine.assembleLine_of_not_fits {l : AsmLine} (h : ¬l.wellFormed = true) : assembleLine l = none :=
  if_neg h

/-- A form with one operand, whose field has `w` bits. -/
theorem Machine.assembleLine_operand {w : Nat} {line : Nat → AsmLine} {command : BitVec w → Instr}
    (hfits : ∀ n, (line n).wellFormed = decide (n < 2 ^ w))
    (hcommand : ∀ n, lineInstr (line n) = some (command (BitVec.ofNat w n))) (n : Nat) :
    (n < 2 ^ w → ∃ (v : Word) (x : BitVec w), assembleLine (line n) = some v ∧ decode v = .ok (command x) ∧
      x.toNat = n) ∧
    (2 ^ w ≤ n → assembleLine (line n) = none) := by
  refine ⟨fun hn => ?_, fun hn => assembleLine_of_not_fits ?_⟩
  · obtain ⟨hword, hdecode⟩ := assembleLine_decodes ((hfits n).trans (decide_eq_true hn)) (hcommand n)
    exact ⟨_, _, hword, hdecode, toNat_ofNat_of_fits hn⟩
  · rw [hfits, decide_eq_true_eq]
    exact Nat.not_lt.mpr hn

/-- A form with an operand whose field has `w` bits, and a polarity. -/
theorem Machine.assembleLine_operand_polarity {w : Nat} {line : Nat → Nat → AsmLine} {command : BitVec w → Bool → Instr}
    (hfits : ∀ n p, (line n p).wellFormed = (decide (n < 2 ^ w) && decide (p < 2)))
    (hcommand : ∀ n p, lineInstr (line n p) = some (command (BitVec.ofNat w n) (p == 1))) (n p : Nat) :
    (n < 2 ^ w → p < 2 → ∃ (v : Word) (x : BitVec w) (b : Bool), assembleLine (line n p) = some v ∧
      decode v = .ok (command x b) ∧ x.toNat = n ∧ b.toNat = p) ∧
    (2 ^ w ≤ n ∨ 2 ≤ p → assembleLine (line n p) = none) := by
  have hboth : (line n p).wellFormed = true ↔ n < 2 ^ w ∧ p < 2 := by simp [hfits]
  refine ⟨fun hn hp => ?_, fun h => assembleLine_of_not_fits ?_⟩
  · obtain ⟨hword, hdecode⟩ := assembleLine_decodes (hboth.mpr ⟨hn, hp⟩) (hcommand n p)
    exact ⟨_, _, _, hword, hdecode, toNat_ofNat_of_fits hn, toNat_beq_one hp⟩
  · rw [hboth]
    omega

/-- `LOAD` runs its three commands when its throttle fits, and nothing when not (R86). -/
theorem Machine.runLine_load (t : Nat) (s : State) :
    (t < 2048 → runLine (.load t) s = some (loadSequence (BitVec.ofNat 11 t) s)) ∧
      (2048 ≤ t → runLine (.load t) s = none) := by
  have hfits : (AsmLine.load t).wellFormed = true ↔ t < 2048 := decide_eq_true_iff
  exact ⟨fun h => if_pos (hfits.mpr h), fun h => if_neg (by rw [hfits]; omega)⟩

/-- Settles O60: the forms with operands by their number of operands, the pseudo-commands by their expansions. -/
theorem assemblerNeverTruncates : Obligations.AssemblerNeverTruncates := by
  unfold Obligations.AssemblerNeverTruncates
  refine ⟨assembleLine_operand_polarity (line := .csum) (command := .csum) (fun _ _ => rfl) fun _ _ => rfl,
    assembleLine_operand_polarity (line := .verify) (command := .verify) (fun _ _ => rfl) fun _ _ => rfl,
    assembleLine_operand (line := .assemble) (command := .assemble) (fun _ => rfl) fun _ => rfl,
    assembleLine_operand (line := .lut) (command := .lut) (fun _ => rfl) fun _ => rfl,
    assembleLine_operand (line := .encode) (command := .encode) (fun _ => rfl) fun _ => rfl,
    assembleLine_operand (line := .send) (command := .send) (fun _ => rfl) fun _ => rfl,
    by decide, fun n => ?_, by decide, fun t s => ?_⟩
  · simp [assembleLine, AsmLine.wellFormed, lineInstr]
  · obtain ⟨hfits, hover⟩ := runLine_load t s
    exact ⟨fun h => ⟨_, toNat_ofNat_of_fits h, hfits h⟩, hover⟩

end Sys2Proof
end
